-- ==== Sys2Proof/Word.lean ====
section
/-! DEFINITION. The value types of the block and their plainest arithmetic: the 2-bit saturating counter
(R20), the Booleans-as-integers of R8 and R9, and the width of a history register (R5). Every other value of
the spec is a non-negative integer (R7), a `Nat` here. -/

namespace Sys2Proof

/-- R20: a saturating counter, two bits, `c = 2 * c[1] + c[0]`. -/
abbrev Counter := BitVec 2

/-- R8: `b2i(t)`, 1 where the outcome is taken and 0 where it is not. -/
def b2i (t : Bool) : Nat := if t then 1 else 0

/-- R8: `i2b(x)`, the Boolean `x = 1`. -/
def i2b (x : Nat) : Bool := x == 1

/-- R5: `K = ceil(log2 N)`, 0 where `N` is 1 (R26). -/
def ceilLog2 (n : Nat) : Nat := if n ≤ 1 then 0 else Nat.log2 (n - 1) + 1

/-- R6: `n = 2^K` for some `K >= 0`. -/
def isPowerOfTwo (n : Nat) : Bool := n == 2 ^ Nat.log2 n

end Sys2Proof
end

