-- ==== Sys2Proof/Machine/Constants.lean ====
section
/-! DEFINITION. The values R5 gives its parameters. The source's are unaudited against its code (N6, D28), so a model
takes them as parameters (I10): each is the default of a field of Config, and stands here, once, where a repair can
reach it (log 12). -/

namespace Sys2Proof.Machine

/-- R5: the default of `N`. -/
def specTableSize : Nat := 1024

/-- R5, D2: the default of `PC_WIDTH`. -/
def specPcWidth : Nat := 64

/-- R5: the value of `LHR_ENTRIES`, the number of local history registers. -/
def specLhrEntries : Nat := 128

/-- R5: the value of `CTR_MAX`, the largest counter value. -/
def specCtrMax : Counter := 3#2

/-- R5, R24: the value of `CTR_INIT`, the counter value after construction, "weakly taken". -/
def specCtrInit : Counter := 2#2

/-- R5, R27, R29: the value of `HIST_INIT`, of every history register after construction. -/
def specHistInit : Nat := 0

end Sys2Proof.Machine
end

