-- ==== Sys2Proof/Config.lean ====
section
/-! DEFINITION. The elaboration parameters of one instance (R5), their legal values (R6) and the errors of an
illegal configuration (R170 to R172). They are fixed while the block runs and are no architectural state. R5's own
values of them are the defaults (Machine/Constants.lean). -/

namespace Sys2Proof

/-- R5: `KIND`, the unit an instance implements. The field UNIT of a command names one of the same four (R63). -/
inductive Kind where
  | sct
  | loc
  | gshare
  | tour
  deriving DecidableEq, Repr

/-- D13: what the meta update does in the one case the source's case list does not give. R5 takes `unchanged`;
every definition of the model takes it as a parameter (log 6). -/
inductive MetaGapAction where
  | unchanged
  | inc
  | dec
  deriving DecidableEq, Repr

/-- R5: the parameters of an instance beside its `KIND`; `K` is derived (`ceilLog2`). `CTR_MAX` and `CTR_INIT` are
values of a 2-bit counter (R20), so that no arithmetic on them wraps (R87). -/
structure Config where
  /-- `N`, the number of counters in every table and the modulus of every history register. -/
  n : Nat := Machine.specTableSize
  /-- `PC_WIDTH`, the width of the field ADDR. -/
  pcWidth : Nat := Machine.specPcWidth
  /-- `META_GAP_ACTION`. -/
  metaGap : MetaGapAction := .unchanged
  /-- `LHR_ENTRIES`, the number of history registers of a LOCAL unit and the modulus of its bucket (I10). -/
  lhrEntries : Nat := Machine.specLhrEntries
  /-- `CTR_MAX`, the largest counter value (I10). -/
  ctrMax : Counter := Machine.specCtrMax
  /-- `CTR_INIT`, the value of every counter after construction (I10). -/
  ctrInit : Counter := Machine.specCtrInit
  /-- `HIST_INIT`, the value of every history register after construction (I10). -/
  histInit : Nat := Machine.specHistInit
  deriving DecidableEq, Repr

/-- R5's values of every parameter. -/
def Config.standard : Config := {}

/-- R6: the kinds whose `N` must be a power of two. -/
def Kind.needsPowerOfTwo : Kind → Bool
  | .sct => false
  | .loc => false
  | .gshare => true
  | .tour => true

/-- R6: the legal parameter values of an instance of kind `k`. -/
def Config.legal (k : Kind) (c : Config) : Bool :=
  decide (1 ≤ c.n) && (!k.needsPowerOfTwo || isPowerOfTwo c.n) && decide (1 ≤ c.pcWidth)

/-- DESIGN CHOICE (log 12): the numbers I10 makes parameters under which the values after reset are legal (R21, R25,
R28). R6 and R172 name no check of them, so an elaboration makes none; R5's own values pass for every `N >= 1`. -/
def Config.numbersOk (c : Config) : Bool :=
  decide (1 ≤ c.lhrEntries) && decide (c.ctrInit ≤ c.ctrMax) && decide (c.histInit < c.n)

/-- What an elaboration may be asked to build: R172 speaks also of "a `KIND` other than the four". -/
inductive KindParam where
  | known (k : Kind)
  | other (name : String)
  deriving DecidableEq, Repr

/-- R170, code 1: the offending parameter and its value. -/
inductive ConfigOffence where
  /-- R172: a `KIND` other than the four. -/
  | kindUnknown (name : String)
  /-- R171: `N = 0`. -/
  | tableSizeZero
  /-- R172: `N` not a power of two where `KIND` is GSHARE or TOURNAMENT. -/
  | tableSizeNotPowerOfTwo (n : Nat)
  /-- R172: `PC_WIDTH = 0`. -/
  | pcWidthZero
  deriving DecidableEq, Repr

end Sys2Proof
end

