-- ==== Sys2Proof/Machine/Counter.lean ====
section
/-! DEFINITION. The counter arithmetic every unit uses (R80 to R83) and the meta-selector's own update rule (R142).
Each result is computed exactly and clamped, never wrapped (R87). The rules' 3 is `CTR_MAX` (R5, I10), here `max`. -/

namespace Sys2Proof.Machine

/-- R80: `min(c + 1, CTR_MAX)`. -/
def satInc (max c : Counter) : Counter := BitVec.ofNat 2 (min (c.toNat + 1) max.toNat)

/-- R81: `max(c - 1, 0)`. -/
def satDec (c : Counter) : Counter := BitVec.ofNat 2 (c.toNat - 1)

/-- R82: `CtrUpdate(c, t)`. -/
def ctrUpdate (max c : Counter) (t : Bool) : Counter := if t then satInc max c else satDec c

/-- R83: `PredBit(c)`, the counter's bit 1 (R22, C1). -/
def predBit (c : Counter) : Bool := i2b (c.toNat / 2)

/-- D13: the action of the case the source's list does not give. -/
def MetaGapAction.apply (max : Counter) : MetaGapAction → Counter → Counter
  | .unchanged, m => m
  | .inc, m => satInc max m
  | .dec, m => satDec m

/-- R142: `MetaUpdate(m, t, G, L)`, case by case as the source lists it; R148 forbids any simplification. -/
def metaUpdate (gap : MetaGapAction) (max m : Counter) (t g l : Bool) : Counter :=
  if predBit m then
    if t then
      if g then satInc max m
      else if l then satDec m
      else m
    else
      if g && !l then satDec m
      else satInc max m
  else
    if t then
      if l then satDec m
      else if g then satInc max m
      else MetaGapAction.apply max gap m
    else
      if l && !g then satInc max m
      else satDec m

end Sys2Proof.Machine
end

