-- ==== Sys2Proof/Syntax.lean ====
section
/-! DEFINITION. The twelve commands, one constructor per row of spec/opcode_table.json, with the operands R60 and
R66 give them: a table index for SCT, a branch address for the others, an outcome for TRAIN. -/

namespace Sys2Proof

inductive Instr where
  /-- R84 -/
  | sctReset
  /-- R85 -/
  | sctPredict (idx : Nat)
  /-- R86 -/
  | sctTrain (idx : Nat) (t : Bool)
  /-- R102 -/
  | localReset
  /-- R103 -/
  | localPredict (pc : Nat)
  /-- R104 -/
  | localTrain (pc : Nat) (t : Bool)
  /-- R122 -/
  | gshareReset
  /-- R123 -/
  | gsharePredict (pc : Nat)
  /-- R124 -/
  | gshareTrain (pc : Nat) (t : Bool)
  /-- R143 -/
  | tourReset
  /-- R144 -/
  | tourPredict (pc : Nat)
  /-- R145 -/
  | tourTrain (pc : Nat) (t : Bool)
  deriving DecidableEq, Repr

/-- R62: the three operations of the field OP that are not reserved. -/
inductive Opcode where
  | reset
  | predict
  | train
  deriving DecidableEq, Repr

/-- The unit a command addresses (R63). -/
def Instr.unit : Instr → Kind
  | .sctReset | .sctPredict _ | .sctTrain _ _ => .sct
  | .localReset | .localPredict _ | .localTrain _ _ => .loc
  | .gshareReset | .gsharePredict _ | .gshareTrain _ _ => .gshare
  | .tourReset | .tourPredict _ | .tourTrain _ _ => .tour

/-- The operation of a command (R62). -/
def Instr.opcode : Instr → Opcode
  | .sctReset | .localReset | .gshareReset | .tourReset => .reset
  | .sctPredict _ | .localPredict _ | .gsharePredict _ | .tourPredict _ => .predict
  | .sctTrain _ _ | .localTrain _ _ | .gshareTrain _ _ | .tourTrain _ _ => .train

/-- The operand of the field ADDR; 0 for RESET, which ignores the field (R66, R71). -/
def Instr.addr : Instr → Nat
  | .sctReset | .localReset | .gshareReset | .tourReset => 0
  | .sctPredict a | .localPredict a | .gsharePredict a | .tourPredict a => a
  | .sctTrain a _ | .localTrain a _ | .gshareTrain a _ | .tourTrain a _ => a

/-- The operand of the field T; not taken for RESET and PREDICT, which ignore the bit (R64, R71). -/
def Instr.outcome : Instr → Bool
  | .sctReset | .localReset | .gshareReset | .tourReset => false
  | .sctPredict _ | .localPredict _ | .gsharePredict _ | .tourPredict _ => false
  | .sctTrain _ t | .localTrain _ t | .gshareTrain _ t | .tourTrain _ t => t

end Sys2Proof
end

