-- ==== Sys2Proof/WellFormed.lean ====
section
/-! DEFINITION. The well-formed commands of an instance: the operand fits the field ADDR. -/

namespace Sys2Proof

/-- R66: the operand lies in `[0, 2^PC_WIDTH)`; R71: one that does not fit is an assembly error, not a command.
An SCT index of `N` or more is a well-formed command, which raises an error when it runs (R175). -/
def Instr.wf (pcWidth : Nat) (i : Instr) : Bool := decide (i.addr < 2 ^ pcWidth)

end Sys2Proof
end

