-- ==== Sys2Proof/Decode.lean ====
section
/-! DEFINITION. The command word (R61): its fields, the decoder (R68), total on every natural number and rejecting
by name, and after it the encoder (R69, R71), written from the same field table. -/

namespace Sys2Proof

/-- R61: field `OP`, bits `[1:0]`. -/
def opField (w : Nat) : Nat := w % 4

/-- R61: field `UNIT`, bits `[3:2]`. -/
def unitField (w : Nat) : Nat := w / 4 % 4

/-- R61: field `T`, bit `[4]`. -/
def tField (w : Nat) : Nat := w / 16 % 2

/-- R61: field `RSV`, bits `[7:5]`. -/
def rsvField (w : Nat) : Nat := w / 32 % 8

/-- R61: field `ADDR`, bits `[8+PC_WIDTH-1:8]`: all the bits above the header byte. -/
def addrField (w : Nat) : Nat := w / 256

/-- R68: `code(KIND)`. -/
def Kind.code : Kind → Nat
  | .sct => 0
  | .loc => 1
  | .gshare => 2
  | .tour => 3

/-- R63: the unit a two-bit field UNIT names. -/
def kindOfCode : Nat → Kind
  | 0 => .sct
  | 1 => .loc
  | 2 => .gshare
  | _ => .tour

/-- R62: the code of an operation. -/
def Opcode.code : Opcode → Nat
  | .reset => 0
  | .predict => 1
  | .train => 2

/-- R62: the operation a two-bit field OP names; `0b11` is reserved. -/
def opcodeOfCode : Nat → Option Opcode
  | 0 => some .reset
  | 1 => some .predict
  | 2 => some .train
  | _ => none

/-- R68: the command of a unit, an operation, and the fields the operation uses. -/
def instrOf : Kind → Opcode → Nat → Bool → Instr
  | .sct, .reset, _, _ => .sctReset
  | .sct, .predict, a, _ => .sctPredict a
  | .sct, .train, a, t => .sctTrain a t
  | .loc, .reset, _, _ => .localReset
  | .loc, .predict, a, _ => .localPredict a
  | .loc, .train, a, t => .localTrain a t
  | .gshare, .reset, _, _ => .gshareReset
  | .gshare, .predict, a, _ => .gsharePredict a
  | .gshare, .train, a, t => .gshareTrain a t
  | .tour, .reset, _, _ => .tourReset
  | .tour, .predict, a, _ => .tourPredict a
  | .tour, .train, a, t => .tourTrain a t

/-- R170: the reasons of `IllegalCommand`. -/
inductive IllegalReason where
  | reservedBits
  | reservedOp
  | unitMismatch
  deriving DecidableEq, Repr

/-- Why a number is no command of an instance. -/
inductive DecodeError where
  /-- Not a word of `8 + PC_WIDTH` bits at all (R61: "no other length"): no port can carry it (log 8). -/
  | wordTooWide
  /-- R174: `IllegalCommand`. -/
  | illegal (r : IllegalReason)
  deriving DecidableEq, Repr

/-- R61: `w` is a word of `8 + PC_WIDTH` bits. -/
def fitsWord (pcWidth w : Nat) : Bool := decide (w < 2 ^ (8 + pcWidth))

/-- R68: the decoder of an instance of kind `k`. The checks are made in the order R68 writes them. -/
def decode (k : Kind) (pcWidth w : Nat) : Except DecodeError Instr :=
  if fitsWord pcWidth w = false then .error .wordTooWide
  else if rsvField w ≠ 0 then .error (.illegal .reservedBits)
  else
    match opcodeOfCode (opField w) with
    | none => .error (.illegal .reservedOp)
    | some op =>
      if unitField w ≠ k.code then .error (.illegal .unitMismatch)
      else .ok (instrOf k op (addrField w) (i2b (tField w)))

/-- R61, R69: `HDR = t * 16 + UNIT * 4 + OP` and the word is `ADDR * 256 + HDR`; R71: the ignored bits are 0. -/
def encode (i : Instr) : Nat :=
  i.addr * 256 + (b2i i.outcome * 16 + i.unit.code * 4 + i.opcode.code)

/-- The instruction that the decoder of the unit the word itself addresses reads from the table's bits of a word,
at the default `PC_WIDTH` (R5). A command is one word on a port, so there is no byte order to lay out (R43). -/
def decodeTableWord (nbits w : Nat) : Option Instr :=
  let x := w % 2 ^ nbits
  (decode (kindOfCode (unitField x)) Config.standard.pcWidth x).toOption

end Sys2Proof
end

