-- ==== Sys2Proof/Machine/Units.lean ====
section
/-! DEFINITION. The state of each unit (10_state.md) and its reset value (R191). A table is a list of `N` counters
from index 0 upward; its length, and a history register's range, are invariants (Safety.lean). -/

namespace Sys2Proof.Machine

/-- R23: an SCT unit is one counter table `CT`. -/
structure SctState where
  ct : List Counter
  deriving DecidableEq, Repr

/-- R25: a LOCAL unit: `LHR[0..LHR_ENTRIES-1]` and `PHT_L[0..N-1]`. -/
structure LocalState where
  lhr : List Nat
  phtL : List Counter
  deriving DecidableEq, Repr

/-- R28: a GSHARE unit: `GHR` and `PHT_G[0..N-1]`. -/
structure GshareState where
  ghr : Nat
  phtG : List Counter
  deriving DecidableEq, Repr

/-- R30: a TOURNAMENT unit: one complete LOCAL, one complete GSHARE and the meta-selector table `META`. -/
structure TourState where
  subL : LocalState
  subG : GshareState
  metaTable : List Counter
  deriving DecidableEq, Repr

/-- "The state of an instance is exactly the state of its KIND" (10_state.md). -/
inductive UnitState where
  | sct (u : SctState)
  | loc (u : LocalState)
  | gshare (u : GshareState)
  | tour (u : TourState)
  deriving DecidableEq, Repr

/-- The `KIND` whose state this is. -/
def UnitState.kind : UnitState → Kind
  | .sct _ => .sct
  | .loc _ => .loc
  | .gshare _ => .gshare
  | .tour _ => .tour

/-- R24: a counter table of `N` entries after reset. -/
def tableReset (c : Config) : List Counter := List.replicate c.n c.ctrInit

/-- R24: the SCT unit after reset. -/
def sctResetState (c : Config) : SctState := ⟨tableReset c⟩

/-- R27: a LOCAL unit after reset. -/
def localResetState (c : Config) : LocalState := ⟨List.replicate c.lhrEntries c.histInit, tableReset c⟩

/-- R29: a GSHARE unit after reset. -/
def gshareResetState (c : Config) : GshareState := ⟨c.histInit, tableReset c⟩

/-- R31: a TOURNAMENT unit after reset. -/
def tourResetState (c : Config) : TourState := ⟨localResetState c, gshareResetState c, tableReset c⟩

/-- R191: the state of a unit of kind `k` after reset. -/
def unitReset (k : Kind) (c : Config) : UnitState :=
  match k with
  | .sct => .sct (sctResetState c)
  | .loc => .loc (localResetState c)
  | .gshare => .gshare (gshareResetState c)
  | .tour => .tour (tourResetState c)

end Sys2Proof.Machine
end

