-- ==== Sys2Proof/Machine/State.lean ====
section
/-! DEFINITION. The state of one instance, the reasons a step can stop, and the state after reset. -/

namespace Sys2Proof.Machine

/-- R170: the errors a command can raise, with the value each one records. Code 1, `ConfigurationError`, is an
elaboration's (Machine/Elaborate.lean) and is never recorded by an instance (R173). -/
inductive CommandError where
  /-- Code 2: the reason and the whole command word. -/
  | illegalCommand (reason : IllegalReason) (word : Nat)
  /-- Code 3: the index. -/
  | indexOutOfRange (index : Nat)
  deriving DecidableEq, Repr

/-- R73: what the host drives on the input ports in one cycle. -/
structure HostCycle where
  rst : Bool
  cmdValid : Bool
  /-- The word on `cmd`, of `8 + PC_WIDTH` bits. -/
  cmd : Nat
  deriving DecidableEq, Repr

/-- R67: what a PREDICT returns. `value` is `some` for SCT.PREDICT alone (R73: `resp_value` has a meaning for
`KIND = SCT` only). -/
structure Response where
  taken : Bool
  value : Option Counter
  deriving DecidableEq, Repr

/-- One instance of the block. -/
structure State where
  /-- The elaboration parameters (R5), which no step changes; `KIND` is the constructor of `unit`. -/
  cfg : Config
  /-- The unit's tables and history registers (R23, R25, R28, R30). -/
  unit : UnitState
  /-- The sticky fault record (R176): `none` where no fault is recorded. -/
  faultRecord : Option CommandError
  /-- The model's own field: what the host drives in the coming cycles, the next one first (log 1). -/
  inputs : List HostCycle
  /-- The model's own field: the response ports in the last cycle, `none` for `resp_valid = 0` (log 4). -/
  resp : Option Response
  deriving DecidableEq, Repr

/-- The instance's `KIND`. -/
def State.kind (s : State) : Kind := s.unit.kind

/-- Why a run ends with a fault. -/
inductive Fault where
  /-- R176: the command was refused and its error recorded; raised by the decoder (R174) and by SCT.PREDICT and
  SCT.TRAIN (R175). Safe: the spec ends a model's run there. -/
  | commandError (e : CommandError)
  /-- A history register or a table has a size or value the spec excludes, so that an index falls outside its
  table, which has no meaning (R41, N9). Raised by the LOCAL, GSHARE and TOURNAMENT commands, and by the SCT
  commands on a table shorter than N. Safe: no state that keeps the invariant of Safety.lean raises it (log 7). -/
  | indexOutsideTable
  deriving DecidableEq, Repr

/-- Why a step is given no meaning. -/
inductive Refusal where
  /-- Raised by an arm of `exec` without a meaning: none is left. Safe. -/
  | notModelled (mnemonic : String)
  /-- Raised by a step whose host presents a number that is no word of `8 + PC_WIDTH` bits, which no port can
  carry (R61, R73). Safe: the invariant of Safety.lean excludes it (log 8). -/
  | wordTooWide (word : Nat)
  deriving DecidableEq, Repr

/-- R191: the reset state of an instance of kind `k` with the parameters `c`. -/
def State.resetFor (k : Kind) (c : Config) : State where
  cfg := c
  unit := unitReset k c
  faultRecord := none
  inputs := []
  resp := none

/-- The state after reset at R5's defaults. R5 gives `KIND` no default: TOURNAMENT, which owns one of each
sub-predictor, is a DESIGN CHOICE (log 2). -/
def State.reset : State := State.resetFor .tour Config.standard

end Sys2Proof.Machine
end

