-- ==== Sys2Proof/Machine/Flags.lean ====
section
/-! DEFINITION. The block has no flags and no condition codes (R33). Its only status is what the output ports of
R73 show: the response of the cycle and the sticky fault record with its code (R170). -/

namespace Sys2Proof.Machine

/-- R170: the code of an error, the value of the port `fault_code`. -/
def CommandError.code : CommandError → BitVec 2
  | .illegalCommand _ _ => 2#2
  | .indexOutOfRange _ => 3#2

/-- R170: the code of `ConfigurationError`. It never appears on the port (R173). -/
def configurationErrorCode : BitVec 2 := 1#2

/-- R73: port `fault`. -/
def State.faultPort (s : State) : Bool := s.faultRecord.isSome

/-- R73: port `fault_code`; 0 where no fault is recorded (R170). -/
def State.faultCodePort (s : State) : BitVec 2 :=
  match s.faultRecord with
  | none => 0#2
  | some e => e.code

/-- R73: port `resp_valid` in the last cycle. -/
def State.respValidPort (s : State) : Bool := s.resp.isSome

/-- R73: port `resp_taken` in the last cycle, where it has a meaning. -/
def State.respTakenPort (s : State) : Option Bool := s.resp.map fun r => r.taken

/-- R73: port `resp_value` in the last cycle, where it has a meaning. -/
def State.respValuePort (s : State) : Option Counter := s.resp.bind fun r => r.value

end Sys2Proof.Machine
end

