-- ==== Sys2Proof/Machine/Operands.lean ====
section
/-! DEFINITION. The index each command forms from its address, and the history update. Every bit of the address
is used as written (R44). -/

namespace Sys2Proof.Machine

/-- R100: `LocalBucket(pc) = pc mod 128`; the 128 is `LHR_ENTRIES` (R5, R25, I10). -/
def localBucket (entries pc : Nat) : Nat := pc % entries

/-- R100: `LocalIndex(S, pc) = S.LHR[LocalBucket(pc)]`. -/
def localIndex (entries : Nat) (u : LocalState) (pc : Nat) : Option Nat := u.lhr[localBucket entries pc]?

/-- R120: `GshareIndex(S, pc) = (pc mod N) xor S.GHR`. -/
def gshareIndex (n : Nat) (u : GshareState) (pc : Nat) : Nat := (pc % n) ^^^ u.ghr

/-- R140: `MetaIndex(pc) = pc mod N`. -/
def metaIndex (n pc : Nat) : Nat := pc % n

/-- R101: `HistNext(h, t) = ((h << 1) + b2i(t)) mod N`; R8: `h << 1` is `2 * h`, not truncated (R87). -/
def histNext (n h : Nat) (t : Bool) : Nat := (2 * h + b2i t) % n

end Sys2Proof.Machine
end

