-- ==== Sys2Proof/Machine/Ops.lean ====
section
/-! DEFINITION. The named operations the meanings share: the two table primitives (R41, R42), raising an error
(R176), the commit of a command's writes (R45), the response of a PREDICT (R67), the reset by `rst` (R190). -/

namespace Sys2Proof.Machine

/-- The outcome of a command. -/
abbrev Result := Host.Outcome State Fault Refusal

/-- R41: `TableRead(T, i)`; `none` where `i` is no entry, which R41 requires it to be. -/
def tableRead (table : List Counter) (i : Nat) : Option Counter := table[i]?

/-- R42: `TableWrite(T, i, v)`: `T[i] = v`, and no other entry changes. -/
def tableWrite (table : List Counter) (i : Nat) (v : Counter) : List Counter := table.set i v

/-- R176: the command raises `e`: nothing is written, nothing is returned, and the run ends. What the block has
recorded then is `State.latchFault`. -/
def State.raise (_s : State) (e : CommandError) : Result := .fault (.commandError e)

/-- R176: the state a refused command leaves: exactly the state before it but for the record, and no response. -/
def State.latchFault (s : State) (e : CommandError) : State := { s with faultRecord := some e, resp := none }

/-- R45, R67: a RESET or TRAIN commits the unit's new state and returns nothing. -/
def State.commit (s : State) (u : UnitState) : State := { s with unit := u, resp := none }

/-- R35, R67: a PREDICT writes no state and returns `r`. -/
def State.respond (s : State) (r : Response) : State := { s with resp := some r }

/-- R73: a cycle that performs no command answers nothing. -/
def State.noResponse (s : State) : State := { s with resp := none }

/-- R190: a rising edge with `rst = 1`: every piece of the unit's state takes its reset value and the fault record
is cleared. It is the only way out of a fault (R182). -/
def State.takeRst (s : State) : State :=
  { s with unit := unitReset s.kind s.cfg, faultRecord := none, resp := none }

/-- R174: a command whose unit the instance does not implement. The decoder refuses its word before `exec` sees it
(R68); handed to `exec` all the same, it raises the error its assembled word raises (log 8). -/
def State.wrongUnit (s : State) (i : Instr) : Result :=
  s.raise (.illegalCommand .unitMismatch (encode i))

/-- Go on with a value read at an index inside its table, or stop (R41). -/
def inTable {α : Type} (x : Option α) (f : α → Result) : Result :=
  match x with
  | none => .fault .indexOutsideTable
  | some a => f a

/-- Run a command of an SCT instance. -/
def onSct (i : Instr) (s : State) (f : SctState → Result) : Result :=
  match s.unit with
  | .sct u => f u
  | .loc _ => s.wrongUnit i
  | .gshare _ => s.wrongUnit i
  | .tour _ => s.wrongUnit i

/-- Run a command of a LOCAL instance. -/
def onLocal (i : Instr) (s : State) (f : LocalState → Result) : Result :=
  match s.unit with
  | .sct _ => s.wrongUnit i
  | .loc u => f u
  | .gshare _ => s.wrongUnit i
  | .tour _ => s.wrongUnit i

/-- Run a command of a GSHARE instance. -/
def onGshare (i : Instr) (s : State) (f : GshareState → Result) : Result :=
  match s.unit with
  | .sct _ => s.wrongUnit i
  | .loc _ => s.wrongUnit i
  | .gshare u => f u
  | .tour _ => s.wrongUnit i

/-- Run a command of a TOURNAMENT instance. -/
def onTour (i : Instr) (s : State) (f : TourState → Result) : Result :=
  match s.unit with
  | .sct _ => s.wrongUnit i
  | .loc _ => s.wrongUnit i
  | .gshare _ => s.wrongUnit i
  | .tour u => f u

/-- R36: the bits of a counter table (R20, R23). -/
def tableBits (table : List Counter) : Nat := 2 * table.length

/-- R36: the bits of a LOCAL unit; a history register has `K` of them (R26). -/
def localBits (n : Nat) (u : LocalState) : Nat := ceilLog2 n * u.lhr.length + tableBits u.phtL

/-- R36: the bits of a GSHARE unit. -/
def gshareBits (n : Nat) (u : GshareState) : Nat := ceilLog2 n + tableBits u.phtG

/-- R36: the bits of storage of an instance, counted over the state it holds. -/
def State.storageBits (s : State) : Nat :=
  match s.unit with
  | .sct u => tableBits u.ct
  | .loc u => localBits s.cfg.n u
  | .gshare u => gshareBits s.cfg.n u
  | .tour u => localBits s.cfg.n u.subL + gshareBits s.cfg.n u.subG + tableBits u.metaTable

end Sys2Proof.Machine
end

