-- ==== Sys2Proof/Machine/Sct.lean ====
section
/-! DEFINITION. The three commands of the SCT unit (40_counter_table.md). -/

namespace Sys2Proof.Machine

/-- R84: every entry of `CT` becomes `CTR_INIT`. -/
def execSctReset (s : State) : Result :=
  onSct .sctReset s fun _ => .next (s.commit (.sct (sctResetState s.cfg)))

/-- R85: the counter at `idx` and its prediction bit; `IndexOutOfRange` before any read. -/
def execSctPredict (idx : Nat) (s : State) : Result :=
  onSct (.sctPredict idx) s fun u =>
    if s.cfg.n ≤ idx then s.raise (.indexOutOfRange idx)
    else inTable (tableRead u.ct idx) fun c => .next (s.respond ⟨predBit c, some c⟩)

/-- R86: the counter at `idx` by the shared update rule; `IndexOutOfRange` before any read or write. -/
def execSctTrain (idx : Nat) (t : Bool) (s : State) : Result :=
  onSct (.sctTrain idx t) s fun u =>
    if s.cfg.n ≤ idx then s.raise (.indexOutOfRange idx)
    else inTable (tableRead u.ct idx) fun c =>
      .next (s.commit (.sct ⟨tableWrite u.ct idx (ctrUpdate s.cfg.ctrMax c t)⟩))

end Sys2Proof.Machine
end

