-- ==== Sys2Proof/Machine/Gshare.lean ====
section
/-! DEFINITION. The GSHARE unit (42_gshare.md): its PREDICT and TRAIN as functions of a GSHARE state, which the
TOURNAMENT applies to `SUB_G`, and the three commands. -/

namespace Sys2Proof.Machine

/-- R123: the prediction bit of `PHT_G[(pc mod N) xor GHR]`. -/
def gsharePredict (n : Nat) (u : GshareState) (pc : Nat) : Option Bool := do
  let c ← tableRead u.phtG (gshareIndex n u pc)
  return predBit c

/-- R124: the counter at the index PREDICT used, then the global history register, whatever the address (R121);
both reads see the state before the command (R45, R198). -/
def gshareTrain (cfg : Config) (u : GshareState) (pc : Nat) (t : Bool) : Option GshareState := do
  let c ← tableRead u.phtG (gshareIndex cfg.n u pc)
  return {
    ghr := histNext cfg.n u.ghr t
    phtG := tableWrite u.phtG (gshareIndex cfg.n u pc) (ctrUpdate cfg.ctrMax c t) }

/-- R122: `GHR` becomes `HIST_INIT`, every `PHT_G` entry `CTR_INIT`. -/
def execGshareReset (s : State) : Result :=
  onGshare .gshareReset s fun _ => .next (s.commit (.gshare (gshareResetState s.cfg)))

/-- R123. -/
def execGsharePredict (pc : Nat) (s : State) : Result :=
  onGshare (.gsharePredict pc) s fun u =>
    inTable (gsharePredict s.cfg.n u pc) fun taken => .next (s.respond ⟨taken, none⟩)

/-- R124. -/
def execGshareTrain (pc : Nat) (t : Bool) (s : State) : Result :=
  onGshare (.gshareTrain pc t) s fun u =>
    inTable (gshareTrain s.cfg u pc t) fun u' => .next (s.commit (.gshare u'))

end Sys2Proof.Machine
end

