-- ==== Sys2Proof/Machine/Local.lean ====
section
/-! DEFINITION. The LOCAL unit (41_local.md): its PREDICT and TRAIN as functions of a LOCAL state, which the
TOURNAMENT applies to `SUB_L`, and the three commands. -/

namespace Sys2Proof.Machine

/-- R103: the prediction bit of `PHT_L[LHR[LocalBucket(pc)]]`. -/
def localPredict (entries : Nat) (u : LocalState) (pc : Nat) : Option Bool := do
  let idx ← localIndex entries u pc
  let c ← tableRead u.phtL idx
  return predBit c

/-- R104: the counter at the index PREDICT used, then the history register of the bucket; both reads see the
state before the command (R45, R198). -/
def localTrain (cfg : Config) (u : LocalState) (pc : Nat) (t : Bool) : Option LocalState := do
  let h ← localIndex cfg.lhrEntries u pc
  let c ← tableRead u.phtL h
  return {
    lhr := u.lhr.set (localBucket cfg.lhrEntries pc) (histNext cfg.n h t)
    phtL := tableWrite u.phtL h (ctrUpdate cfg.ctrMax c t) }

/-- R102: every `LHR` becomes `HIST_INIT`, every `PHT_L` entry `CTR_INIT`. -/
def execLocalReset (s : State) : Result :=
  onLocal .localReset s fun _ => .next (s.commit (.loc (localResetState s.cfg)))

/-- R103. -/
def execLocalPredict (pc : Nat) (s : State) : Result :=
  onLocal (.localPredict pc) s fun u =>
    inTable (localPredict s.cfg.lhrEntries u pc) fun taken => .next (s.respond ⟨taken, none⟩)

/-- R104. -/
def execLocalTrain (pc : Nat) (t : Bool) (s : State) : Result :=
  onLocal (.localTrain pc t) s fun u =>
    inTable (localTrain s.cfg u pc t) fun u' => .next (s.commit (.loc u'))

end Sys2Proof.Machine
end

