-- ==== Sys2Proof/Machine/Tournament.lean ====
section
/-! DEFINITION. The TOURNAMENT unit (43_tournament.md): selection by the meta-selector, its PREDICT and TRAIN over
the two sub-predictors, and the three commands. -/

namespace Sys2Proof.Machine

/-- R141: `pickGlobal(pc)`, the prediction bit of `META[pc mod N]`. -/
def pickGlobal (n : Nat) (u : TourState) (pc : Nat) : Option Bool := do
  let m ← tableRead u.metaTable (metaIndex n pc)
  return predBit m

/-- R144: the answer of the sub-predictor the meta-selector trusts. -/
def tourPredict (cfg : Config) (u : TourState) (pc : Nat) : Option Bool := do
  let global ← pickGlobal cfg.n u pc
  if global then gsharePredict cfg.n u.subG pc else localPredict cfg.lhrEntries u.subL pc

/-- R145: the two sub-predictions and the meta counter are read first; then the meta counter moves by R142 and
both sub-predictors are trained, each from its own state before the command (R146, R147). -/
def tourTrain (cfg : Config) (u : TourState) (pc : Nat) (t : Bool) : Option TourState := do
  let g ← gsharePredict cfg.n u.subG pc
  let l ← localPredict cfg.lhrEntries u.subL pc
  let m ← tableRead u.metaTable (metaIndex cfg.n pc)
  let subL ← localTrain cfg u.subL pc t
  let subG ← gshareTrain cfg u.subG pc t
  return {
    subL := subL
    subG := subG
    metaTable := tableWrite u.metaTable (metaIndex cfg.n pc) (metaUpdate cfg.metaGap cfg.ctrMax m t g l) }

/-- R143: both sub-predictors take their reset state, every `META` entry becomes `CTR_INIT`. -/
def execTourReset (s : State) : Result :=
  onTour .tourReset s fun _ => .next (s.commit (.tour (tourResetState s.cfg)))

/-- R144. -/
def execTourPredict (pc : Nat) (s : State) : Result :=
  onTour (.tourPredict pc) s fun u =>
    inTable (tourPredict s.cfg u pc) fun taken => .next (s.respond ⟨taken, none⟩)

/-- R145. -/
def execTourTrain (pc : Nat) (t : Bool) (s : State) : Result :=
  onTour (.tourTrain pc t) s fun u =>
    inTable (tourTrain s.cfg u pc t) fun u' => .next (s.commit (.tour u'))

end Sys2Proof.Machine
end

