-- ==== Sys2Proof/Machine/Dispatch.lean ====
section
/-! DEFINITION. One arm per command: each one direct call of its meaning. -/

namespace Sys2Proof.Machine

def exec (i : Instr) (s : State) : Host.Outcome State Fault Refusal :=
  match i with
  | .sctReset => Sys2Proof.Machine.execSctReset s
  | .sctPredict idx => Sys2Proof.Machine.execSctPredict idx s
  | .sctTrain idx t => Sys2Proof.Machine.execSctTrain idx t s
  | .localReset => Sys2Proof.Machine.execLocalReset s
  | .localPredict pc => Sys2Proof.Machine.execLocalPredict pc s
  | .localTrain pc t => Sys2Proof.Machine.execLocalTrain pc t s
  | .gshareReset => Sys2Proof.Machine.execGshareReset s
  | .gsharePredict pc => Sys2Proof.Machine.execGsharePredict pc s
  | .gshareTrain pc t => Sys2Proof.Machine.execGshareTrain pc t s
  | .tourReset => Sys2Proof.Machine.execTourReset s
  | .tourPredict pc => Sys2Proof.Machine.execTourPredict pc s
  | .tourTrain pc t => Sys2Proof.Machine.execTourTrain pc t s

end Sys2Proof.Machine
end

