-- ==== Sys2Proof/Machine/Cycle.lean ====
section
/-! DEFINITION. One clock cycle at the ports (R73, R74): what a step does with the word the host presents. -/

namespace Sys2Proof.Machine

/-- R68, R174: decode the word presented and run its command, or raise `IllegalCommand` with the reason and the
whole word (R170). -/
def runWord (w : Nat) (s : State) : Result :=
  match decode s.kind s.cfg.pcWidth w with
  | .ok i => exec i s
  | .error (.illegal r) => s.raise (.illegalCommand r w)
  | .error .wordTooWide => .refused (.wordTooWide w)

/-- One cycle. `rst` wins over a command (R199); a block with a fault recorded ignores every command (R176); with
no command presented nothing changes (R35); else the command runs, all of it in this cycle (R196). -/
def runCycle (c : HostCycle) (s : State) : Result :=
  if c.rst then .next s.takeRst
  else if s.faultPort || !c.cmdValid then .next s.noResponse
  else runWord c.cmd s

/-- The next cycle: the host's next presentation is taken off the stream; where the stream has ended the host
presents nothing (log 1). -/
def nextCycle (s : State) : Result :=
  match s.inputs with
  | [] => .next s.noResponse
  | c :: rest => runCycle c { s with inputs := rest }

/-- A cycle in which the host presents the command word `w`. -/
def presentWord (w : Nat) : HostCycle := ⟨false, true, w⟩

/-- A cycle in which the host presents nothing. -/
def idleCycle : HostCycle := ⟨false, false, 0⟩

/-- A cycle with `rst = 1`. -/
def rstCycle : HostCycle := ⟨true, false, 0⟩

/-- The same instance elaborated for another unit, at its reset state; no change where it is of that kind already.
An instance implements one unit (R63), so a word addressed to another one needs another instance. DESIGN CHOICE
(log 3): the parameters are kept as they are, so that a GSHARE or TOURNAMENT word given to an SCT or LOCAL state whose
`N` is no power of two makes an instance that `elaborate` refuses (R172, R173). -/
def State.selectUnit (s : State) (k : Kind) : State :=
  if s.kind = k then s else { s with unit := unitReset k s.cfg }

/-- The host presents the word in the next cycle, to an instance of the unit the word addresses with no fault
recorded. -/
def State.presentNext (s : State) (w : Nat) : State :=
  let t := s.selectUnit (kindOfCode (unitField w))
  { t with faultRecord := none, inputs := presentWord w :: t.inputs }

/-- The low `8 + PC_WIDTH` bits of the table's `nbits` bits of a word: what the port `cmd` carries (R61, R73). -/
def portWord (pcWidth nbits w : Nat) : Nat := w % 2 ^ nbits % 2 ^ (8 + pcWidth)

end Sys2Proof.Machine
end

