-- ==== Sys2Proof/Machine/Step.lean ====
section
/-! DEFINITION. One step of a model's run: one clock cycle (R200 lets a model take each command as one step). -/

namespace Sys2Proof.Machine

/-- One step. A refused command ends the run with a fault outcome (R176). -/
def step (s : State) : Host.Outcome State Fault Refusal := nextCycle s

/-- The state in which the very next step runs the command word: the host presents it in the next cycle, to an
instance of the unit it addresses (log 3). -/
def State.withFetchWord (s : State) (nbits w : Nat) : State :=
  s.presentNext (portWord s.cfg.pcWidth nbits w)

end Sys2Proof.Machine
end

