-- ==== Sys2Proof/Machine/Assembler.lean ====
section
/-! DEFINITION. The text form of a command (R71) and the pseudo-instruction `<unit>.br` (R72): one line of
characters to the command words it stands for. White space, which R71 does not speak of, is log 16's. -/

namespace Sys2Proof.Machine

/-- What one line of R71 and R72 says. -/
inductive AsmLine where
  /-- `<unit>.reset`, `<unit>.predict <addr>`, `<unit>.train <addr>, T|NT`. -/
  | command (i : Instr)
  /-- `<unit>.br <addr>, T|NT`. -/
  | br (k : Kind) (addr : Nat) (t : Bool)
  deriving DecidableEq, Repr

/-- Why a line assembles to nothing. -/
inductive AsmError where
  /-- Not a line of R71 or R72. -/
  | badLine
  /-- R71: "An address that does not fit in PC_WIDTH bits is an assembly error". -/
  | addressTooWide (addr : Nat)
  deriving DecidableEq, Repr

/-- R72: `<unit>.br <addr>, <o>` is the PREDICT and then the TRAIN of the same address. -/
def expandLine : AsmLine → List Instr
  | .command i => [i]
  | .br k addr t => [instrOf k .predict addr false, instrOf k .train addr t]

/-- The address a line writes. -/
def AsmLine.addr : AsmLine → Nat
  | .command i => i.addr
  | .br _ addr _ => addr

/-- R71: the words of a line, the ignored bits 0. -/
def assembleLine (pcWidth : Nat) (line : AsmLine) : Except AsmError (List Nat) :=
  if (expandLine line).all (fun i => i.wf pcWidth) then .ok ((expandLine line).map encode)
  else .error (.addressTooWide line.addr)

def isBlank (c : Char) : Bool := c == ' ' || c == '\t' || c == '\r'

/-- R71: mnemonics and outcome keywords are case-insensitive. -/
def lowerChar (c : Char) : Char := if 'A' ≤ c ∧ c ≤ 'Z' then Char.ofNat (c.toNat + 32) else c

/-- R71: `;` starts a comment. -/
def dropComment (cs : List Char) : List Char := cs.takeWhile (fun c => c != ';')

def trimBlanks (cs : List Char) : List Char :=
  ((cs.dropWhile isBlank).reverse.dropWhile isBlank).reverse

/-- The text before and after the first character that `p` holds of, which is left out. -/
def splitFirst (p : Char → Bool) : List Char → List Char × Option (List Char)
  | [] => ([], none)
  | c :: cs =>
    if p c then ([], some cs)
    else ((c :: (splitFirst p cs).1), (splitFirst p cs).2)

def digitValue (c : Char) : Nat :=
  if '0' ≤ c ∧ c ≤ '9' then c.toNat - 48
  else if 'a' ≤ c ∧ c ≤ 'f' then c.toNat - 87
  else 16

/-- A number of digits below `base`, most significant first; none where a character is no digit of the base. -/
def readDigits (base : Nat) : Nat → List Char → Option Nat
  | acc, [] => some acc
  | acc, c :: cs => if digitValue c < base then readDigits base (acc * base + digitValue c) cs else none

/-- R71: "numbers decimal or `0x` hexadecimal", in lower case here. -/
def readNumber : List Char → Option Nat
  | [] => none
  | ['0', 'x'] => none
  | '0' :: 'x' :: cs => readDigits 16 0 cs
  | c :: cs => readDigits 10 0 (c :: cs)

/-- R71: `T` and `NT`; "`1` and `0` are accepted for `T` and `NT`". -/
def readOutcome (cs : List Char) : Option Bool :=
  if cs = ['t'] ∨ cs = ['1'] then some true
  else if cs = ['n', 't'] ∨ cs = ['0'] then some false
  else none

/-- R71: `<unit>`. -/
def readUnit (cs : List Char) : Option Kind :=
  if cs = ['s', 'c', 't'] then some .sct
  else if cs = ['l', 'o', 'c', 'a', 'l'] then some .loc
  else if cs = ['g', 's', 'h', 'a', 'r', 'e'] then some .gshare
  else if cs = ['t', 'o', 'u', 'r'] then some .tour
  else none

/-- The operation of a line: a command's, or `br` as `none`. -/
def readOperation (cs : List Char) : Option (Option Opcode) :=
  if cs = ['r', 'e', 's', 'e', 't'] then some (some .reset)
  else if cs = ['p', 'r', 'e', 'd', 'i', 'c', 't'] then some (some .predict)
  else if cs = ['t', 'r', 'a', 'i', 'n'] then some (some .train)
  else if cs = ['b', 'r'] then some none
  else none

/-- `<addr>, T|NT`. -/
def readAddrOutcome (cs : List Char) : Option (Nat × Bool) :=
  match splitFirst (fun c => c == ',') cs with
  | (_, none) => none
  | (a, some o) => do
    let addr ← readNumber (trimBlanks a)
    let t ← readOutcome (trimBlanks o)
    return (addr, t)

/-- The operands of one operation of one unit. -/
def readOperands (k : Kind) (op : Option Opcode) (cs : List Char) : Option AsmLine :=
  match op with
  | some .reset => if cs = [] then some (.command (instrOf k .reset 0 false)) else none
  | some .predict => (readNumber cs).map fun a => .command (instrOf k .predict a false)
  | some .train => (readAddrOutcome cs).map fun x => .command (instrOf k .train x.1 x.2)
  | none => (readAddrOutcome cs).map fun x => .br k x.1 x.2

/-- A line without its comment and its outer blanks, in lower case: `<unit>.<operation>` and the operands. -/
def readTrimmed (cs : List Char) : Option AsmLine :=
  match splitFirst (fun c => c == '.') (splitFirst isBlank cs).1 with
  | (_, none) => none
  | (u, some o) => do
    let k ← readUnit u
    let op ← readOperation o
    readOperands k op (trimBlanks ((splitFirst isBlank cs).2.getD []))

/-- The words one line of text stands for; none for a line that is blank but for a comment. -/
def assembleText (pcWidth : Nat) (text : List Char) : Except AsmError (List Nat) :=
  let cs := (trimBlanks (dropComment text)).map lowerChar
  if cs = [] then .ok []
  else
    match readTrimmed cs with
    | none => .error .badLine
    | some line => assembleLine pcWidth line

/-- The words of a program, one line of text after another (R71: "one per line"). -/
def assembleProgram (pcWidth : Nat) : List (List Char) → Except AsmError (List Nat)
  | [] => .ok []
  | l :: ls =>
    match assembleText pcWidth l, assembleProgram pcWidth ls with
    | .ok ws, .ok rest => .ok (ws ++ rest)
    | .error e, _ => .error e
    | .ok _, .error e => .error e

end Sys2Proof.Machine
end

