-- ==== Sys2Proof/Machine/Elaborate.lean ====
section
/-! DEFINITION. Elaboration, the source's `construct` (R60, R173): a configuration is refused before any state
exists, or gives an instance in its reset state (R193). -/

namespace Sys2Proof.Machine

/-- R171, R172: what is wrong with the parameters of a known kind. -/
def configOffences (k : Kind) (c : Config) : List ConfigOffence :=
  (if c.n = 0 then [.tableSizeZero]
   else if k.needsPowerOfTwo && !isPowerOfTwo c.n then [.tableSizeNotPowerOfTwo c.n] else [])
  ++ (if c.pcWidth = 0 then [.pcWidthZero] else [])

/-- R173: the construction returns the error instead of a state. All the offending parameters are named, since the
spec gives no order among them (log 15). -/
def elaborate (k : KindParam) (c : Config) : Except (List ConfigOffence) State :=
  match k with
  | .other name => .error [.kindUnknown name]
  | .known k =>
    match configOffences k c with
    | [] => .ok (State.resetFor k c)
    | o :: os => .error (o :: os)

end Sys2Proof.Machine
end

