-- ==== Sys2Proof/Machine/Hardware.lean ====
section
/-! DEFINITION. What the hardware does where a model's run ends: R176 has the block latch the error and ignore every
further command until `rst`, and P4, P5, RV3 and RV4 of 95_test_vectors.md follow it there. A model's run is
`step`; `hwCycle` is the same cycle with the refused command's record latched. -/

namespace Sys2Proof.Machine

/-- The state when the next cycle's presentation has been taken off the stream. -/
def State.afterInput (s : State) : State := { s with inputs := s.inputs.tail }

/-- R176: one cycle of the block, past a refused command. -/
def hwCycle (s : State) : Result :=
  match step s with
  | .next s' => .next s'
  | .fault (.commandError e) => .next (s.afterInput.latchFault e)
  | .fault .indexOutsideTable => .fault .indexOutsideTable
  | .refused r => .refused r

/-- `k` cycles of the block. -/
def hwRun : Nat → State → Result
  | 0, s => .next s
  | k + 1, s =>
    match hwCycle s with
    | .next s' => hwRun k s'
    | .fault f => .fault f
    | .refused r => .refused r

/-- The composition of the meanings of a command sequence (R195), up to the first that stops. -/
def runCommands : List Instr → State → Result
  | [], s => .next s
  | i :: is, s =>
    match exec i s with
    | .next s' => runCommands is s'
    | .fault f => .fault f
    | .refused r => .refused r

end Sys2Proof.Machine
end

