-- ==== Sys2Proof/Safety.lean ====
section
/-! DEFINITION. The well-formed states (the legal values of 10_state.md), and the host's obligation of R194, in the
terms claims use. -/

namespace Sys2Proof.Machine

/-- R23, R21: a counter table of `N` entries, each in `[0, CTR_MAX]`. -/
abbrev tableWf (c : Config) (table : List Counter) : Prop :=
  table.length = c.n ∧ ∀ v ∈ table, v ≤ c.ctrMax

/-- R25: `LHR_ENTRIES` histories, each in `[0, N)`, and a table. -/
abbrev localWf (c : Config) (u : LocalState) : Prop :=
  u.lhr.length = c.lhrEntries ∧ (∀ h ∈ u.lhr, h < c.n) ∧ tableWf c u.phtL

/-- R28: a history in `[0, N)` and a table. -/
abbrev gshareWf (c : Config) (u : GshareState) : Prop := u.ghr < c.n ∧ tableWf c u.phtG

/-- R30: all with the same `N`. -/
abbrev tourWf (c : Config) (u : TourState) : Prop :=
  localWf c u.subL ∧ gshareWf c u.subG ∧ tableWf c u.metaTable

/-- The legal values of a unit's state. -/
def unitWf (c : Config) : UnitState → Prop
  | .sct u => tableWf c u.ct
  | .loc u => localWf c u
  | .gshare u => gshareWf c u
  | .tour u => tourWf c u

/-- R170: the error recorded is one this instance can raise, with the value R170 says is recorded. -/
def recordWf (k : Kind) (c : Config) : Option CommandError → Prop
  | none => True
  | some (.illegalCommand r w) => decode k c.pcWidth w = .error (.illegal r)
  | some (.indexOutOfRange i) => k = .sct ∧ c.n ≤ i ∧ i < 2 ^ c.pcWidth

/-- R67: a response carries a counter exactly where `KIND` is SCT, and `taken` is then its prediction bit. -/
def respWf (k : Kind) : Option Response → Prop
  | none => True
  | some r =>
    match r.value with
    | none => k ≠ .sct
    | some c => k = .sct ∧ r.taken = predBit c

/-- The words the host presents are words of the port (R61). -/
abbrev inputsWf (pcWidth : Nat) (cs : List HostCycle) : Prop := ∀ c ∈ cs, c.cmd < 2 ^ (8 + pcWidth)

/-- The invariant: a legal configuration (R6) whose numbers fit (log 12) and legal values everywhere (R21, R23, R25,
R28, R30). -/
structure State.Inv (s : State) : Prop where
  cfgLegal : s.cfg.legal s.kind = true
  numbersOk : s.cfg.numbersOk = true
  unitOk : unitWf s.cfg s.unit
  recordOk : recordWf s.kind s.cfg s.faultRecord
  inputsOk : inputsWf s.cfg.pcWidth s.inputs
  respOk : respWf s.kind s.resp

/-- A command the instance performs: of its own unit, its operand within ADDR (R66), an SCT index within the table
(R175). -/
def State.Performs (s : State) (i : Instr) : Prop :=
  i.unit = s.kind ∧ i.wf s.cfg.pcWidth = true ∧
    (i.unit = .sct → i.opcode ≠ .reset → i.addr < s.cfg.n)

/-- R149: what holds of a TOURNAMENT trained at the one address `p`: the bucket's history is the GHR, and the two
tables correspond entry by entry. -/
def agreesAt (c : Config) (p : Nat) (u : TourState) : Prop :=
  u.subL.lhr[localBucket c.lhrEntries p]? = some u.subG.ghr ∧
    ∀ x < c.n, u.subL.phtL[x]? = u.subG.phtG[(p % c.n) ^^^ x]?

/-- R194: a stream of commands in which every PREDICT is followed at once by the TRAIN of its address, and every
TRAIN is one that follows its PREDICT so: the host's obligation, which the block does not check (R195). R194 bars
other commands between the two only. DESIGN CHOICE (log 20): a RESET of any unit before, after or between the pairs
keeps the order, as programs P1 to P3 begin with one; a PREDICT or a TRAIN by itself breaks it. -/
def keepsBranchOrder : List Instr → Bool
  | [] => true
  | [i] => i.opcode == .reset
  | p :: t :: rest =>
    if p.opcode == .reset then keepsBranchOrder (t :: rest)
    else
      p.opcode == .predict && t.opcode == .train && p.unit == t.unit && p.addr == t.addr && keepsBranchOrder rest

/-- A safe run of `k` cycles: no refused command, no word without a meaning. -/
def safeRun : Nat → State → Prop
  | 0, _ => True
  | k + 1, s => ∃ s', step s = .next s' ∧ safeRun k s'

end Sys2Proof.Machine
end

