-- ==== Sys2Proof/Certificates/Slice0/Obligations.lean ====
section
/-! DEFINITION. The statements for the provers. Each docstring names the rule of spec/ it formalises. Where a
statement gives a counter's new value it says it in R80 to R82's arithmetic, and a prediction as the counter's bit
1 (R22), not by the model's functions. The rules' 128, 3, 2 and 0 stand as the parameters R5 names (LHR_ENTRIES,
CTR_MAX, CTR_INIT, HIST_INIT; I10, D28), so that a statement holds for every instance; that R5's values of them are
128, 3, 2 and 0 is the second clause of `ResetStateValues`. Where the premise is `s.Inv`, it asks also that these
numbers fit the tables (the model's choice, log 12), as R5's do for every N (the last clause of
`ResetHasInvariant`). -/

open Sys2Proof Sys2Proof.Machine

/-! ### Encoding -/

/-- R61, R63, R69: words written out from the field table, one command of each family, an ignored T bit, ignored
ADDR bits, and one word refused for each reason (DV2, DV4, DV9, DV12, DV14, DV15). -/
def Obligations.WrittenWordsDecode : Prop :=
  decode .sct 64 0x000000000000000012 = .ok (.sctTrain 0 true) ∧
  decode .sct 64 0x000000000000000301 = .ok (.sctPredict 3) ∧
  decode .loc 64 0x00000000000000FF14 = .ok .localReset ∧
  decode .loc 64 0x000000000000000115 = .ok (.localPredict 1) ∧
  decode .gshare 64 0xFFFFFFFFFFFFFFFF1A = .ok (.gshareTrain 0xFFFFFFFFFFFFFFFF true) ∧
  decode .tour 64 0x00000000000000AB0E = .ok (.tourTrain 0xAB false) ∧
  decode .loc 64 0x000000000000000025 = .error (.illegal .reservedBits) ∧
  decode .loc 64 0x00000000000000000B = .error (.illegal .reservedOp) ∧
  decode .loc 64 0x000000000000000009 = .error (.illegal .unitMismatch)

/-- R61 to R66, R71: for every well-formed command of every unit, at every PC_WIDTH, the decoder of that unit reads
the command back from its word. -/
def Obligations.EncodedCommandDecodesBack : Prop :=
  ∀ (pw : Nat) (i : Instr), i.wf pw = true → decode i.unit pw (encode i) = .ok i

/-- R64, R66: a word that decodes is its command's word but for the ignored bits: T for PREDICT, T and ADDR for
RESET. -/
def Obligations.DecodedWordIsItsCommandsWord : Prop :=
  ∀ (k : Kind) (pw w : Nat) (i : Instr), decode k pw w = .ok i →
    i.unit = k ∧ i.wf pw = true ∧ w < 2 ^ (8 + pw) ∧
    (i.opcode = .train → encode i = w) ∧
    (i.opcode = .predict → encode i = w ∨ encode i + 16 = w) ∧
    (i.opcode = .reset → encode i = w % 16)

/-- R68: the decoder's checks in the order written, and what a word that passes them decodes to. -/
def Obligations.DecoderFollowsTheFieldTable : Prop :=
  (Kind.sct.code = 0 ∧ Kind.loc.code = 1 ∧ Kind.gshare.code = 2 ∧ Kind.tour.code = 3) ∧
  ∀ (k : Kind) (pw w : Nat), w < 2 ^ (8 + pw) →
    let rsv := w.testBit 5 || w.testBit 6 || w.testBit 7
    let reservedOp := w.testBit 0 && w.testBit 1
    (rsv = true → decode k pw w = .error (.illegal .reservedBits)) ∧
    (rsv = false → reservedOp = true → decode k pw w = .error (.illegal .reservedOp)) ∧
    (rsv = false → reservedOp = false → 2 * b2i (w.testBit 3) + b2i (w.testBit 2) ≠ k.code →
      decode k pw w = .error (.illegal .unitMismatch)) ∧
    (rsv = false → reservedOp = false → 2 * b2i (w.testBit 3) + b2i (w.testBit 2) = k.code →
      ∃ i : Instr, decode k pw w = .ok i ∧ i.unit = k ∧
        (w.testBit 0 = false → w.testBit 1 = false → i.opcode = .reset) ∧
        (w.testBit 0 = true → i.opcode = .predict ∧ i.addr = w / 256) ∧
        (w.testBit 1 = true → i.opcode = .train ∧ i.addr = w / 256 ∧ i.outcome = w.testBit 4))

/-! ### Counters and histories -/

/-- R80, R81, R82: the counter arithmetic, and its full table, at R5's CTR_MAX = 3; and the same with every CTR_MAX. -/
def Obligations.SaturatingCounterArithmetic : Prop :=
  (∀ c : Counter, (satInc 3#2 c).toNat = min (c.toNat + 1) 3 ∧ (satDec c).toNat = max (c.toNat - 1) 0) ∧
  ([0#2, 1#2, 2#2, 3#2].map (ctrUpdate 3#2 · true) = [1#2, 2#2, 3#2, 3#2]) ∧
  ([0#2, 1#2, 2#2, 3#2].map (ctrUpdate 3#2 · false) = [0#2, 0#2, 1#2, 2#2]) ∧
  ∀ top c : Counter, (satInc top c).toNat = min (c.toNat + 1) top.toNat ∧
    ctrUpdate top c true = satInc top c ∧ ctrUpdate top c false = satDec c

/-- R83: the prediction bit is counter bit 1, true exactly for 2 and 3. -/
def Obligations.PredictionIsBitOne : Prop :=
  ∀ c : Counter, predBit c = c.getLsbD 1 ∧ (predBit c = true ↔ c = 2#2 ∨ c = 3#2)

/-- R142: the four-way rule as the new counter value for every `m` (the second full table), with META_GAP_ACTION at
the spec's value UNCHANGED and CTR_MAX at 3. -/
def Obligations.MetaUpdateTable : Prop :=
  let row := fun (t g l : Bool) => [0#2, 1#2, 2#2, 3#2].map (metaUpdate .unchanged 3#2 · t g l)
  row true true true = [0#2, 0#2, 3#2, 3#2] ∧
  row true true false = [1#2, 2#2, 3#2, 3#2] ∧
  row true false true = [0#2, 0#2, 1#2, 2#2] ∧
  row true false false = [0#2, 1#2, 2#2, 3#2] ∧
  row false true true = [0#2, 0#2, 3#2, 3#2] ∧
  row false true false = [0#2, 0#2, 1#2, 2#2] ∧
  row false false true = [1#2, 2#2, 3#2, 3#2] ∧
  row false false false = [0#2, 0#2, 3#2, 3#2]

/-- D13, I9: META_GAP_ACTION acts in one case only, trusting local, taken, neither sub-predictor taken (log 6). -/
def Obligations.MetaGapActsInOneCase : Prop :=
  ∀ (gap : MetaGapAction) (top m : Counter) (t g l : Bool),
    (m.getLsbD 1 = false ∧ t = true ∧ g = false ∧ l = false →
      (metaUpdate gap top m t g l).toNat = match gap with
        | .unchanged => m.toNat
        | .inc => min (m.toNat + 1) top.toNat
        | .dec => m.toNat - 1) ∧
    (¬ (m.getLsbD 1 = false ∧ t = true ∧ g = false ∧ l = false) →
      metaUpdate gap top m t g l = metaUpdate .unchanged top m t g l)

/-- R26, R101: with `N = 2^K`, the history after any sequence of updates from 0 holds the last `K` outcomes, the
newest in bit 0, and nothing above. -/
def Obligations.HistoryHoldsRecentOutcomes : Prop :=
  ∀ (k : Nat) (ts : List Bool) (j : Nat),
    (ts.foldl (histNext (2 ^ k)) 0).testBit j = (decide (j < k) && (ts.reverse[j]?).getD false)

/-- R101: `HistNext` for every `N >= 1`: the exact double plus the outcome, reduced; always below `N`; 0 where `N`
is 1; and R26's width: a history below `N` fits in `ceil(log2 N)` bits. -/
def Obligations.HistoryStaysBelowTableSize : Prop :=
  ∀ (n h : Nat) (t : Bool), 1 ≤ n →
    histNext n h t = (2 * h + (if t then 1 else 0)) % n ∧ histNext n h t < n ∧ histNext 1 h t = 0 ∧
    (h < n → h < 2 ^ ceilLog2 n)

/-- R125: the gshare index is below `N = 2^K`; for `N = 6` the bound fails. -/
def Obligations.GshareIndexBound : Prop :=
  (∀ (k pc : Nat) (u : GshareState), u.ghr < 2 ^ k → gshareIndex (2 ^ k) u pc < 2 ^ k) ∧
  gshareIndex 6 ⟨2, []⟩ 5 = 7

/-! ### The SCT unit -/

/-- R84: SCT.RESET. -/
def Obligations.SctResetResult : Prop :=
  (∀ pw a h, a < 2 ^ pw → h ∈ [0x00, 0x10] → decode .sct pw (256 * a + h) = .ok .sctReset) ∧
  ∀ (s : State) (u : SctState), s.unit = .sct u →
    exec .sctReset s = .next { s with unit := .sct ⟨List.replicate s.cfg.n s.cfg.ctrInit⟩, resp := none }

/-- R85: SCT.PREDICT, with the error at an index of N or more. -/
def Obligations.SctPredictResult : Prop :=
  (∀ pw a h, a < 2 ^ pw → h ∈ [0x01, 0x11] → decode .sct pw (256 * a + h) = .ok (.sctPredict a)) ∧
  ∀ (s : State) (u : SctState) (i : Nat), s.Inv → s.unit = .sct u →
    (i < s.cfg.n → ∃ c, u.ct[i]? = some c ∧
      exec (.sctPredict i) s = .next { s with resp := some ⟨c.getLsbD 1, some c⟩ }) ∧
    (s.cfg.n ≤ i → exec (.sctPredict i) s = .fault (.commandError (.indexOutOfRange i)))

/-- R86: SCT.TRAIN, with the error at an index of N or more. -/
def Obligations.SctTrainResult : Prop :=
  (∀ pw a t, a < 2 ^ pw → decode .sct pw (256 * a + (if t then 0x12 else 0x02)) = .ok (.sctTrain a t)) ∧
  ∀ (s : State) (u : SctState) (i : Nat) (t : Bool), s.Inv → s.unit = .sct u →
    (i < s.cfg.n → ∃ c v : Counter, u.ct[i]? = some c ∧
      v.toNat = (if t then min (c.toNat + 1) s.cfg.ctrMax.toNat else c.toNat - 1) ∧
      exec (.sctTrain i t) s = .next { s with unit := .sct ⟨u.ct.set i v⟩, resp := none }) ∧
    (s.cfg.n ≤ i → exec (.sctTrain i t) s = .fault (.commandError (.indexOutOfRange i)))

/-! ### The LOCAL unit -/

/-- R102: LOCAL.RESET. -/
def Obligations.LocalResetResult : Prop :=
  (∀ pw a h, a < 2 ^ pw → h ∈ [0x04, 0x14] → decode .loc pw (256 * a + h) = .ok .localReset) ∧
  ∀ (s : State) (u : LocalState), s.unit = .loc u →
    exec .localReset s = .next { s with
      unit := .loc ⟨List.replicate s.cfg.lhrEntries s.cfg.histInit, List.replicate s.cfg.n s.cfg.ctrInit⟩
      resp := none }

/-- R103: LOCAL.PREDICT. -/
def Obligations.LocalPredictResult : Prop :=
  (∀ pw a h, a < 2 ^ pw → h ∈ [0x05, 0x15] → decode .loc pw (256 * a + h) = .ok (.localPredict a)) ∧
  ∀ (s : State) (u : LocalState) (pc : Nat), s.Inv → s.unit = .loc u →
    ∃ idx c, u.lhr[pc % s.cfg.lhrEntries]? = some idx ∧ u.phtL[idx]? = some c ∧
      exec (.localPredict pc) s = .next { s with resp := some ⟨c.getLsbD 1, none⟩ }

/-- R104: LOCAL.TRAIN. -/
def Obligations.LocalTrainResult : Prop :=
  (∀ pw a t, a < 2 ^ pw → decode .loc pw (256 * a + (if t then 0x16 else 0x06)) = .ok (.localTrain a t)) ∧
  ∀ (s : State) (u : LocalState) (pc : Nat) (t : Bool), s.Inv → s.unit = .loc u →
    ∃ (idx : Nat) (c v : Counter), u.lhr[pc % s.cfg.lhrEntries]? = some idx ∧ u.phtL[idx]? = some c ∧
      v.toNat = (if t then min (c.toNat + 1) s.cfg.ctrMax.toNat else c.toNat - 1) ∧
      exec (.localTrain pc t) s = .next { s with
        unit := .loc ⟨u.lhr.set (pc % s.cfg.lhrEntries) ((2 * idx + (if t then 1 else 0)) % s.cfg.n),
          u.phtL.set idx v⟩
        resp := none }

/-! ### The GSHARE unit -/

/-- R122: GSHARE.RESET. -/
def Obligations.GshareResetResult : Prop :=
  (∀ pw a h, a < 2 ^ pw → h ∈ [0x08, 0x18] → decode .gshare pw (256 * a + h) = .ok .gshareReset) ∧
  ∀ (s : State) (u : GshareState), s.unit = .gshare u →
    exec .gshareReset s = .next { s with
      unit := .gshare ⟨s.cfg.histInit, List.replicate s.cfg.n s.cfg.ctrInit⟩, resp := none }

/-- R123: GSHARE.PREDICT. -/
def Obligations.GsharePredictResult : Prop :=
  (∀ pw a h, a < 2 ^ pw → h ∈ [0x09, 0x19] → decode .gshare pw (256 * a + h) = .ok (.gsharePredict a)) ∧
  ∀ (s : State) (u : GshareState) (pc : Nat), s.Inv → s.unit = .gshare u →
    ∃ c, u.phtG[(pc % s.cfg.n) ^^^ u.ghr]? = some c ∧
      exec (.gsharePredict pc) s = .next { s with resp := some ⟨c.getLsbD 1, none⟩ }

/-- R124, and R121: GSHARE.TRAIN moves the GHR whatever the address. -/
def Obligations.GshareTrainResult : Prop :=
  (∀ pw a t, a < 2 ^ pw →
    decode .gshare pw (256 * a + (if t then 0x1A else 0x0A)) = .ok (.gshareTrain a t)) ∧
  ∀ (s : State) (u : GshareState) (pc : Nat) (t : Bool), s.Inv → s.unit = .gshare u →
    ∃ c v : Counter, u.phtG[(pc % s.cfg.n) ^^^ u.ghr]? = some c ∧
      v.toNat = (if t then min (c.toNat + 1) s.cfg.ctrMax.toNat else c.toNat - 1) ∧
      exec (.gshareTrain pc t) s = .next { s with
        unit := .gshare ⟨(2 * u.ghr + (if t then 1 else 0)) % s.cfg.n,
          u.phtG.set ((pc % s.cfg.n) ^^^ u.ghr) v⟩
        resp := none }

/-! ### The TOURNAMENT unit -/

/-- R143: TOUR.RESET. -/
def Obligations.TourResetResult : Prop :=
  (∀ pw a h, a < 2 ^ pw → h ∈ [0x0C, 0x1C] → decode .tour pw (256 * a + h) = .ok .tourReset) ∧
  ∀ (s : State) (u : TourState), s.unit = .tour u →
    exec .tourReset s = .next { s with
      unit := .tour ⟨⟨List.replicate s.cfg.lhrEntries s.cfg.histInit, List.replicate s.cfg.n s.cfg.ctrInit⟩,
        ⟨s.cfg.histInit, List.replicate s.cfg.n s.cfg.ctrInit⟩, List.replicate s.cfg.n s.cfg.ctrInit⟩
      resp := none }

/-- R144, R141, R140: TOUR.PREDICT answers the GSHARE counter's bit where the meta counter is 2 or 3 and the LOCAL
counter's where it is 0 or 1. -/
def Obligations.TourPredictResult : Prop :=
  (∀ pw a h, a < 2 ^ pw → h ∈ [0x0D, 0x1D] → decode .tour pw (256 * a + h) = .ok (.tourPredict a)) ∧
  ∀ (s : State) (u : TourState) (pc : Nat), s.Inv → s.unit = .tour u →
    ∃ (m cg cl : Counter) (idx : Nat),
      u.metaTable[pc % s.cfg.n]? = some m ∧
      u.subG.phtG[(pc % s.cfg.n) ^^^ u.subG.ghr]? = some cg ∧
      u.subL.lhr[pc % s.cfg.lhrEntries]? = some idx ∧ u.subL.phtL[idx]? = some cl ∧
      exec (.tourPredict pc) s = .next { s with
        resp := some ⟨if 2 ≤ m.toNat then cg.getLsbD 1 else cl.getLsbD 1, none⟩ }

/-- R145: TOUR.TRAIN, the meta counter by R142's rule from the two sub-predictions of the state before the command,
and both sub-predictors by R104 and R124. -/
def Obligations.TourTrainResult : Prop :=
  (∀ pw a t, a < 2 ^ pw → decode .tour pw (256 * a + (if t then 0x1E else 0x0E)) = .ok (.tourTrain a t)) ∧
  ∀ (s : State) (u : TourState) (pc : Nat) (t : Bool), s.Inv → s.unit = .tour u →
    ∃ (m cg cl vg vl : Counter) (idx : Nat),
      u.metaTable[pc % s.cfg.n]? = some m ∧
      u.subG.phtG[(pc % s.cfg.n) ^^^ u.subG.ghr]? = some cg ∧
      u.subL.lhr[pc % s.cfg.lhrEntries]? = some idx ∧ u.subL.phtL[idx]? = some cl ∧
      vg.toNat = (if t then min (cg.toNat + 1) s.cfg.ctrMax.toNat else cg.toNat - 1) ∧
      vl.toNat = (if t then min (cl.toNat + 1) s.cfg.ctrMax.toNat else cl.toNat - 1) ∧
      exec (.tourTrain pc t) s = .next { s with
        unit := .tour {
          subL := ⟨u.subL.lhr.set (pc % s.cfg.lhrEntries) ((2 * idx + (if t then 1 else 0)) % s.cfg.n),
            u.subL.phtL.set idx vl⟩
          subG := ⟨(2 * u.subG.ghr + (if t then 1 else 0)) % s.cfg.n,
            u.subG.phtG.set ((pc % s.cfg.n) ^^^ u.subG.ghr) vg⟩
          metaTable := u.metaTable.set (pc % s.cfg.n)
            (metaUpdate s.cfg.metaGap s.cfg.ctrMax m t (cg.getLsbD 1) (cl.getLsbD 1)) }
        resp := none }

/-! ### Frames -/

/-- R35: a PREDICT of any unit changes nothing but the response, and a cycle with no command changes no state. -/
def Obligations.PredictAndIdleChangeNoState : Prop :=
  (∀ (i : Instr) (s s' : State), i.opcode = .predict → exec i s = .next s' →
    s'.cfg = s.cfg ∧ s'.unit = s.unit ∧ s'.faultRecord = s.faultRecord ∧ s'.inputs = s.inputs) ∧
  (∀ (s : State) (c : HostCycle) (rest : List HostCycle), s.inputs = c :: rest → c.rst = false →
    c.cmdValid = false → step s = .next { s with inputs := rest, resp := none })

/-- R42, R45: SCT.TRAIN writes one entry of CT and nothing else. -/
def Obligations.SctTrainFrame : Prop :=
  ∀ (s s' : State) (u : SctState) (idx : Nat) (t : Bool), s.unit = .sct u →
    exec (.sctTrain idx t) s = .next s' →
    s'.cfg = s.cfg ∧ s'.faultRecord = s.faultRecord ∧ s'.inputs = s.inputs ∧
    ∃ u' : SctState, s'.unit = .sct u' ∧ ∀ j, j ≠ idx → tableRead u'.ct j = tableRead u.ct j

/-- R42, R45: LOCAL.TRAIN writes one entry of PHT_L, at the index the bucket's history gave before the command, and
that bucket's history register, and nothing else. -/
def Obligations.LocalTrainFrame : Prop :=
  ∀ (s s' : State) (u : LocalState) (pc : Nat) (t : Bool), s.unit = .loc u →
    exec (.localTrain pc t) s = .next s' →
    s'.cfg = s.cfg ∧ s'.faultRecord = s.faultRecord ∧ s'.inputs = s.inputs ∧
    ∃ u' : LocalState, s'.unit = .loc u' ∧
      (∀ b, b ≠ localBucket s.cfg.lhrEntries pc → u'.lhr[b]? = u.lhr[b]?) ∧
      (∀ idx, localIndex s.cfg.lhrEntries u pc = some idx → ∀ j, j ≠ idx → tableRead u'.phtL j = tableRead u.phtL j)

/-- R42, R45: GSHARE.TRAIN writes one entry of PHT_G, at the index of the state before the command, and the GHR, and
nothing else. -/
def Obligations.GshareTrainFrame : Prop :=
  ∀ (s s' : State) (u : GshareState) (pc : Nat) (t : Bool), s.unit = .gshare u →
    exec (.gshareTrain pc t) s = .next s' →
    s'.cfg = s.cfg ∧ s'.faultRecord = s.faultRecord ∧ s'.inputs = s.inputs ∧
    ∃ u' : GshareState, s'.unit = .gshare u' ∧
      ∀ j, j ≠ gshareIndex s.cfg.n u pc → tableRead u'.phtG j = tableRead u.phtG j

/-- R42, R45: TOUR.TRAIN writes one META entry, one SUB_L.PHT_L entry, one SUB_L.LHR register, one SUB_G.PHT_G entry
and SUB_G.GHR, and nothing else. -/
def Obligations.TourTrainFrame : Prop :=
  ∀ (s s' : State) (u : TourState) (pc : Nat) (t : Bool), s.unit = .tour u →
    exec (.tourTrain pc t) s = .next s' →
    s'.cfg = s.cfg ∧ s'.faultRecord = s.faultRecord ∧ s'.inputs = s.inputs ∧
    ∃ u' : TourState, s'.unit = .tour u' ∧
      (∀ b, b ≠ localBucket s.cfg.lhrEntries pc → u'.subL.lhr[b]? = u.subL.lhr[b]?) ∧
      (∀ idx, localIndex s.cfg.lhrEntries u.subL pc = some idx →
        ∀ j, j ≠ idx → tableRead u'.subL.phtL j = tableRead u.subL.phtL j) ∧
      (∀ j, j ≠ gshareIndex s.cfg.n u.subG pc → tableRead u'.subG.phtG j = tableRead u.subG.phtG j) ∧
      (∀ j, j ≠ metaIndex s.cfg.n pc → tableRead u'.metaTable j = tableRead u.metaTable j)

/-- R45, R190: a RESET command writes every piece of the unit's state, and neither the fault record nor anything
outside the unit. -/
def Obligations.ResetCommandFrame : Prop :=
  ∀ (i : Instr) (s s' : State), i.opcode = .reset → exec i s = .next s' →
    s'.cfg = s.cfg ∧ s'.faultRecord = s.faultRecord ∧ s'.inputs = s.inputs ∧ s'.kind = s.kind ∧
    s'.resp = none

/-! ### The invariant -/

/-- R191: every piece of state of a reset instance, for every kind and every configuration; and the values of it that
R191 writes out, R5's, which are every configuration's unless it names others. -/
def Obligations.ResetStateValues : Prop :=
  (∀ (k : Kind) (c : Config), let s := State.resetFor k c
    s.kind = k ∧ s.cfg = c ∧ s.faultPort = false ∧ s.faultCodePort = 0#2 ∧
    match s.unit with
    | .sct u => u.ct.length = c.n ∧ ∀ i < c.n, u.ct[i]? = some c.ctrInit
    | .loc u => u.lhr.length = c.lhrEntries ∧ (∀ b < c.lhrEntries, u.lhr[b]? = some c.histInit) ∧
        u.phtL.length = c.n ∧ ∀ i < c.n, u.phtL[i]? = some c.ctrInit
    | .gshare u => u.ghr = c.histInit ∧ u.phtG.length = c.n ∧ ∀ i < c.n, u.phtG[i]? = some c.ctrInit
    | .tour u => u.subL.lhr.length = c.lhrEntries ∧ (∀ b < c.lhrEntries, u.subL.lhr[b]? = some c.histInit) ∧
        u.subL.phtL.length = c.n ∧ (∀ i < c.n, u.subL.phtL[i]? = some c.ctrInit) ∧
        u.subG.ghr = c.histInit ∧ u.subG.phtG.length = c.n ∧ (∀ i < c.n, u.subG.phtG[i]? = some c.ctrInit) ∧
        u.metaTable.length = c.n ∧ ∀ i < c.n, u.metaTable[i]? = some c.ctrInit) ∧
  ∀ (n pw : Nat) (gap : MetaGapAction), let c : Config := { n := n, pcWidth := pw, metaGap := gap }
    c.lhrEntries = 128 ∧ c.ctrMax = 3#2 ∧ c.ctrInit = 2#2 ∧ c.histInit = 0

/-- The invariant holds in the model's reset state, where KIND = TOURNAMENT is the model's choice (log 2), and in the
reset state of every kind and legal configuration whose numbers fit (the model's choice, log 12), as R5's do. -/
def Obligations.ResetHasInvariant : Prop :=
  State.reset.Inv ∧
  (∀ (k : Kind) (c : Config), c.legal k = true → c.numbersOk = true → (State.resetFor k c).Inv) ∧
  ∀ (n pw : Nat) (gap : MetaGapAction), 1 ≤ n →
    Config.numbersOk { n := n, pcWidth := pw, metaGap := gap } = true

/-- R6, R171, R172: a known kind elaborates exactly for the legal parameters, to the reset state of R191; no
other KIND elaborates. -/
def Obligations.ElaborationAcceptsExactlyLegalParameters : Prop :=
  (∀ (name : String) (c : Config) (s : State), elaborate (.other name) c ≠ .ok s) ∧
  ∀ (k : Kind) (c : Config),
    ((∃ s, elaborate (.known k) c = .ok s) ↔
      1 ≤ c.n ∧ (k = .gshare ∨ k = .tour → ∃ e, c.n = 2 ^ e) ∧ 1 ≤ c.pcWidth) ∧
    (∀ s, elaborate (.known k) c = .ok s → s = State.resetFor k c)

/-- R21, R25, R28, R30, R105: from every state with legal values, not only those a run reaches, every step gives a
state with legal values: table sizes, the number of local histories, every history below N, every counter at most
CTR_MAX, a legal configuration whose numbers fit (the model's choice, log 12). -/
def Obligations.StepKeepsInvariant : Prop :=
  ∀ s s' : State, s.Inv → step s = .next s' → s'.Inv

/-- The same of the block past a refused command (R176): the error latched is one the instance can raise, with the
value R170 says is recorded. -/
def Obligations.HardwareCycleKeepsInvariant : Prop :=
  ∀ s s' : State, s.Inv → hwCycle s = .next s' → s'.Inv

/-- R105, R125, R140, R41: with legal values no command's index leaves its table, and no step is without a
meaning. -/
def Obligations.NoIndexLeavesItsTable : Prop :=
  ∀ s : State, s.Inv → step s ≠ .fault .indexOutsideTable ∧ ∀ r, step s ≠ .refused r

/-- R5: the parameters are "never changed while the block runs", the KIND among them. -/
def Obligations.ParametersNeverChange : Prop :=
  ∀ s s' : State, step s = .next s' → s'.cfg = s.cfg ∧ s'.kind = s.kind

/-- R175, R170: only an SCT instance raises IndexOutOfRange, at an index of N or more, the ADDR of the word
presented. -/
def Obligations.OnlySctRaisesIndexOutOfRange : Prop :=
  ∀ (s : State) (i : Nat), step s = .fault (.commandError (.indexOutOfRange i)) →
    s.kind = .sct ∧ s.cfg.n ≤ i ∧ ∃ c rest, s.inputs = c :: rest ∧ c.cmd / 256 = i

/-! ### Steps, ports and faults -/

/-- R68, R74: where the host presents a word that decodes to a command and no fault is recorded, the step is that
command's meaning in the state with the presentation taken off the stream. -/
def Obligations.StepRunsDecodedCommand : Prop :=
  ∀ (s : State) (w : Nat) (rest : List HostCycle) (i : Instr),
    s.inputs = ⟨false, true, w⟩ :: rest → s.faultRecord = none → decode s.kind s.cfg.pcWidth w = .ok i →
    step s = exec i { s with inputs := rest }

/-- The model's own (log 3): `withFetchWord` makes the very next step run the word's command on an instance of the
unit the word addresses, with the parameters as they are, be they legal for that unit or not. -/
def Obligations.FetchWordRunsNext : Prop :=
  ∀ (s : State) (nbits w : Nat) (i : Instr),
    let x := w % 2 ^ nbits % 2 ^ (8 + s.cfg.pcWidth)
    decode i.unit s.cfg.pcWidth x = .ok i →
    ∃ t : State, step (s.withFetchWord nbits w) = exec i t ∧ t.kind = i.unit ∧ t.cfg = s.cfg ∧
      t.faultRecord = none ∧ t.inputs = s.inputs ∧ t.resp = s.resp ∧
      t.unit = (if s.kind = i.unit then s.unit else unitReset i.unit s.cfg)

/-- R174: a word with reserved bits, a reserved operation or another unit raises IllegalCommand with the reason and
the whole word; nothing of the command is performed. -/
def Obligations.IllegalWordRaisesIllegalCommand : Prop :=
  ∀ (s : State) (w : Nat) (rest : List HostCycle),
    s.inputs = ⟨false, true, w⟩ :: rest → s.faultRecord = none → w < 2 ^ (8 + s.cfg.pcWidth) →
    (w / 32 % 8 ≠ 0 → step s = .fault (.commandError (.illegalCommand .reservedBits w))) ∧
    (w / 32 % 8 = 0 → w % 4 = 3 → step s = .fault (.commandError (.illegalCommand .reservedOp w))) ∧
    (w / 32 % 8 = 0 → w % 4 ≠ 3 → w / 4 % 4 ≠ s.kind.code →
      step s = .fault (.commandError (.illegalCommand .unitMismatch w)))

/-- The model's own (log 8), after R63 and R174: a command of a unit the instance does not implement, handed to
`exec` without the decoder, raises what its assembled word raises, and the decoder refuses that word so. -/
def Obligations.CommandOfAnotherUnitIsRefused : Prop :=
  ∀ (s : State) (i : Instr), i.unit ≠ s.kind →
    exec i s = .fault (.commandError (.illegalCommand .unitMismatch (encode i))) ∧
    (i.wf s.cfg.pcWidth = true → decode s.kind s.cfg.pcWidth (encode i) = .error (.illegal .unitMismatch))

/-- R176: a refused command ends a model's run with a fault outcome; the block then holds exactly the state before
it, with the error and its code latched and no response. For an SCT.PREDICT with an index of N or more, no response
is the model's choice (log 9, DEDUCED): R73 read alone has `resp_valid` = 1 there, R176 and R85 have none. -/
def Obligations.RefusedCommandLatchesItsError : Prop :=
  ∀ (s : State) (e : CommandError), step s = .fault (.commandError e) →
    hwCycle s = .next { s with inputs := s.inputs.tail, faultRecord := some e, resp := none } ∧
    (State.latchFault s e).faultPort = true ∧
    (State.latchFault s e).faultCodePort = (match e with
      | .illegalCommand _ _ => 2#2
      | .indexOutOfRange _ => 3#2)

/-- R176: the record is sticky and the faulted block ignores every further command, for any number of cycles in
which the host does not raise `rst`. -/
def Obligations.FaultedBlockIgnoresCommandsUntilRst : Prop :=
  ∀ (k : Nat) (s : State) (e : CommandError), s.faultRecord = some e →
    (∀ c ∈ s.inputs.take k, c.rst = false) → 0 < k →
    hwRun k s = .next { s with inputs := s.inputs.drop k, resp := none }

/-- R199, R190: a cycle with `rst = 1` takes the reset state and clears the fault record, whatever else the host
presents and whatever is recorded; a RESET command of the instance's unit gives the unit the same state. -/
def Obligations.RstAndResetGiveResetState : Prop :=
  (∀ (s : State) (c : HostCycle) (rest : List HostCycle), s.inputs = c :: rest → c.rst = true →
    step s = .next { State.resetFor s.kind s.cfg with inputs := rest }) ∧
  (∀ (s : State) (i : Instr), i.opcode = .reset → i.unit = s.kind →
    exec i s = .next { State.resetFor s.kind s.cfg with faultRecord := s.faultRecord, inputs := s.inputs })

/-- R73: after a cycle that performs, `resp_valid` was 1 exactly where a command was presented, `rst` was 0, no
fault was recorded and the word decodes to a PREDICT. -/
def Obligations.ResponseValidExactlyForPredict : Prop :=
  ∀ (s s' : State) (c : HostCycle) (rest : List HostCycle), s.inputs = c :: rest → step s = .next s' →
    (s'.respValidPort = true ↔ c.cmdValid = true ∧ c.rst = false ∧ s.faultRecord = none ∧
      ∃ i, decode s.kind s.cfg.pcWidth c.cmd = .ok i ∧ i.opcode = .predict)

/-- R84 to R86, R102 to R104, R122 to R124, R143 to R145: every command of the instance's own unit, an SCT index
within the table, completes from every state with legal values. -/
def Obligations.LegalCommandsComplete : Prop :=
  ∀ (s : State) (i : Instr), s.Inv → s.Performs i → ∃ t, exec i s = .next t

/-- R178, R196: a stream of legal commands, idle cycles and resets runs any number of cycles without a fault. -/
def Obligations.LegalStreamsRunSafely : Prop :=
  ∀ (k : Nat) (s : State), s.Inv →
    (∀ c ∈ s.inputs, c.rst = true ∨ c.cmdValid = false ∨
      ∃ i, decode s.kind s.cfg.pcWidth c.cmd = .ok i ∧ s.Performs i) →
    safeRun k s

/-! ### Rules of the whole machine -/

/-- R46: a PREDICT repeats its answer, a RESET is idempotent, and a TRAIN is not: an SCT counter trained taken twice is
updated twice, so that one at 1 ends at 3 where CTR_MAX is R5's 3. -/
def Obligations.IdempotencyOfCommands : Prop :=
  (∀ (i : Instr) (s s' : State), i.opcode ≠ .train → exec i s = .next s' → exec i s' = .next s') ∧
  (∀ (s : State) (u : SctState) (idx : Nat) (c : Counter), s.unit = .sct u → idx < s.cfg.n → u.ct[idx]? = some c →
    ∃ (s' : State) (u' : SctState) (v : Counter),
      runCommands [.sctTrain idx true, .sctTrain idx true] s = .next s' ∧
      s'.unit = .sct u' ∧ u'.ct[idx]? = some v ∧ v.toNat = min (c.toNat + 2) s.cfg.ctrMax.toNat ∧
      (s.cfg.ctrMax = 3#2 → c = 1#2 → v = 3#2))

/-- R33, R35, R177: PREDICT leaves nothing behind that TRAIN or RESET reads: the same commands with every PREDICT
left out leave the unit in the same state. -/
def Obligations.PredictionsLeaveNoTrace : Prop :=
  ∀ (is : List Instr) (s1 s2 t1 : State), s1.cfg = s2.cfg → s1.unit = s2.unit →
    runCommands is s1 = .next t1 →
    ∃ t2, runCommands (is.filter fun i => i.opcode != .predict) s2 = .next t2 ∧ t2.unit = t1.unit

/-- R198, for a LOCAL and a GSHARE unit: the counter a TRAIN updates is the one the PREDICT before it read, at the
index formed before the shift, and the history the next PREDICT sees is the shifted one. -/
def Obligations.TrainUpdatesTheCounterPredictRead : Prop :=
  (∀ (s s1 s2 : State) (u : LocalState) (pc : Nat) (t : Bool), s.Inv → s.unit = .loc u →
    exec (.localPredict pc) s = .next s1 → exec (.localTrain pc t) s1 = .next s2 →
    ∃ (u2 : LocalState) (idx : Nat) (c v : Counter), s2.unit = .loc u2 ∧
      localIndex s.cfg.lhrEntries u pc = some idx ∧ tableRead u.phtL idx = some c ∧ s1.resp = some ⟨c.getLsbD 1, none⟩ ∧
      tableRead u2.phtL idx = some v ∧ v.toNat = (if t then min (c.toNat + 1) s.cfg.ctrMax.toNat else c.toNat - 1) ∧
      localIndex s.cfg.lhrEntries u2 pc = some ((2 * idx + (if t then 1 else 0)) % s.cfg.n)) ∧
  (∀ (s s1 s2 : State) (u : GshareState) (pc : Nat) (t : Bool), s.Inv → s.unit = .gshare u →
    exec (.gsharePredict pc) s = .next s1 → exec (.gshareTrain pc t) s1 = .next s2 →
    ∃ (u2 : GshareState) (c v : Counter), s2.unit = .gshare u2 ∧
      tableRead u.phtG (gshareIndex s.cfg.n u pc) = some c ∧ s1.resp = some ⟨c.getLsbD 1, none⟩ ∧
      tableRead u2.phtG (gshareIndex s.cfg.n u pc) = some v ∧
      v.toNat = (if t then min (c.toNat + 1) s.cfg.ctrMax.toNat else c.toNat - 1) ∧
      gshareIndex s.cfg.n u2 pc = (pc % s.cfg.n) ^^^ ((2 * u.ghr + (if t then 1 else 0)) % s.cfg.n))

/-- R106: addresses equal modulo LHR_ENTRIES (128) are the same address to a LOCAL unit, and addresses whose buckets
hold the same history get the same answer and train the same counter. -/
def Obligations.LocalAliasing : Prop :=
  ∀ (s : State) (u : LocalState) (pc pc' : Nat), s.unit = .loc u →
    (pc % s.cfg.lhrEntries = pc' % s.cfg.lhrEntries → exec (.localPredict pc) s = exec (.localPredict pc') s ∧
      ∀ t, exec (.localTrain pc t) s = exec (.localTrain pc' t) s) ∧
    (u.lhr[pc % s.cfg.lhrEntries]? = u.lhr[pc' % s.cfg.lhrEntries]? →
      exec (.localPredict pc) s = exec (.localPredict pc') s ∧
      ∀ (t : Bool) (s1 s2 : State) (u1 u2 : LocalState),
        exec (.localTrain pc t) s = .next s1 → exec (.localTrain pc' t) s = .next s2 →
        s1.unit = .loc u1 → s2.unit = .loc u2 → u1.phtL = u2.phtL)

/-- R126, R123: addresses equal modulo N are the same address to a GSHARE unit, and two events at any histories use
the same counter whenever their indices are equal. -/
def Obligations.GshareAliasing : Prop :=
  (∀ (s : State) (u : GshareState) (pc pc' : Nat), s.unit = .gshare u → pc % s.cfg.n = pc' % s.cfg.n →
    exec (.gsharePredict pc) s = exec (.gsharePredict pc') s ∧
    ∀ t, exec (.gshareTrain pc t) s = exec (.gshareTrain pc' t) s) ∧
  (∀ (n pc pc' : Nat) (u u' : GshareState), u.phtG = u'.phtG →
    (pc % n) ^^^ u.ghr = (pc' % n) ^^^ u'.ghr →
    gsharePredict n u pc = gsharePredict n u' pc' ∧
    ∀ (cfg : Config) (t : Bool) (v v' : GshareState), cfg.n = n →
      gshareTrain cfg u pc t = some v → gshareTrain cfg u' pc' t = some v' → v.phtG = v'.phtG)

/-- R36: the storage totals of a state with legal values, with R5's LHR_ENTRIES = 128 for R36's 128, and
the table's column for N = 1024. -/
def Obligations.StorageTotals : Prop :=
  ∀ s : State, s.Inv →
    s.storageBits = (match s.kind with
      | .sct => 2 * s.cfg.n
      | .loc => s.cfg.lhrEntries * ceilLog2 s.cfg.n + 2 * s.cfg.n
      | .gshare => ceilLog2 s.cfg.n + 2 * s.cfg.n
      | .tour => s.cfg.lhrEntries * ceilLog2 s.cfg.n + ceilLog2 s.cfg.n + 6 * s.cfg.n) ∧
    (s.cfg.lhrEntries = 128 → s.cfg.n = 1024 → s.storageBits = (match s.kind with
      | .sct => 2048
      | .loc => 3328
      | .gshare => 2058
      | .tour => 7434))

/-- R147: after any sequence of TOUR commands the sub-predictors hold what a standalone LOCAL and a standalone GSHARE
hold after the same sequence of their own commands. -/
def Obligations.SubPredictorsTrackStandaloneUnits : Prop :=
  ∀ (ops : List (Opcode × Nat × Bool)) (s sl sg : State) (u : TourState), s.Inv →
    s.unit = .tour u → sl.cfg = s.cfg → sl.unit = .loc u.subL → sg.cfg = s.cfg → sg.unit = .gshare u.subG →
    let run := fun (k : Kind) => runCommands (ops.map fun o => instrOf k o.1 o.2.1 o.2.2)
    ∃ (t tl tg : State) (v : TourState), run .tour s = .next t ∧ run .loc sl = .next tl ∧
      run .gshare sg = .next tg ∧ t.unit = .tour v ∧ tl.unit = .loc v.subL ∧ tg.unit = .gshare v.subG

/-- R149: a TOURNAMENT reset and then trained at one address only: the bucket's history equals the GHR, the tables
correspond entry by entry, and the answer is the same whichever sub-predictor is selected. -/
def Obligations.OneAddressNeverDisagrees : Prop :=
  ∀ (c : Config) (p : Nat) (ts : List Bool), c.legal .tour = true → c.numbersOk = true →
    ∃ (s : State) (u : TourState),
      runCommands (ts.map fun t => .tourTrain p t) (State.resetFor .tour c) = .next s ∧ s.unit = .tour u ∧
      u.subL.lhr[p % c.lhrEntries]? = some u.subG.ghr ∧
      (∀ x < c.n, u.subL.phtL[x]? = u.subG.phtG[(p % c.n) ^^^ x]?) ∧
      ∃ taken, gsharePredict c.n u.subG p = some taken ∧ localPredict c.lhrEntries u.subL p = some taken ∧
        exec (.tourPredict p) s = .next { s with resp := some ⟨taken, none⟩ }

/-- R149, R145, its step: from every TOURNAMENT state with legal values in which the two sub-predictors agree for one
address, not only those a run reaches, a TRAIN of that address completes in such a state again; a reset state is one;
and in one, both sub-predictors answer the same. -/
def Obligations.OneAddressTrainKeepsAgreement : Prop :=
  (∀ (s : State) (u : TourState) (p : Nat) (t : Bool), s.Inv → s.unit = .tour u → agreesAt s.cfg p u →
    ∃ (s' : State) (u' : TourState), exec (.tourTrain p t) s = .next s' ∧ s'.Inv ∧ s'.cfg = s.cfg ∧
      s'.unit = .tour u' ∧ agreesAt s.cfg p u') ∧
  (∀ (c : Config) (p : Nat), c.legal .tour = true → c.numbersOk = true →
    ∃ u : TourState, (State.resetFor .tour c).unit = .tour u ∧ agreesAt c p u) ∧
  (∀ (s : State) (u : TourState) (p : Nat), s.Inv → s.unit = .tour u → agreesAt s.cfg p u →
    ∃ taken, gsharePredict s.cfg.n u.subG p = some taken ∧ localPredict s.cfg.lhrEntries u.subL p = some taken)

/-! ### The assembler -/

/-- R71: lines of text, each form, the keywords in any case, a comment, `1` and `0`, and an address that does not
fit. The blanks are the model's choice (log 16). -/
def Obligations.AssemblerReadsWrittenLines : Prop :=
  assembleText 64 "local.train 0x5, T".toList = .ok [0x000000000000000516] ∧
  assembleText 64 "TOUR.Train 171, nt ; not taken".toList = .ok [0xAB0E] ∧
  assembleText 64 "gshare.predict 0xfF".toList = .ok [0xFF09] ∧
  assembleText 64 "sct.reset".toList = .ok [0x00] ∧
  assembleText 64 "sct.train 3, 1".toList = .ok [0x0312] ∧
  assembleText 64 "sct.br 2, 0".toList = .ok [0x0201, 0x0202] ∧
  assembleText 64 "; a comment".toList = .ok [] ∧
  assembleText 4 "local.predict 16".toList = .error (.addressTooWide 16) ∧
  assembleText 64 "local.reset 1".toList = .error .badLine

/-- R71, R68: the words a line assembles to are the commands the line stands for, each decoded by its own unit. -/
def Obligations.AssembledWordsDecodeToTheLine : Prop :=
  ∀ (pw : Nat) (line : AsmLine) (ws : List Nat), assembleLine pw line = .ok ws →
    List.Forall₂ (fun i w => decode i.unit pw w = .ok i) (expandLine line) ws

/-- R72: `<unit>.br` is the PREDICT and then the TRAIN of the same address, two words; its result is the result of
the PREDICT. -/
def Obligations.BranchPseudoInstructionExpands : Prop :=
  ∀ (pw : Nat) (k : Kind) (a : Nat) (t : Bool), a < 2 ^ pw →
    assembleLine pw (.br k a t) =
      .ok [256 * a + (4 * k.code + 1), 256 * a + ((if t then 16 else 0) + 4 * k.code + 2)] ∧
    ∀ s s1 : State, exec (instrOf k .predict a false) s = .next s1 →
      runCommands (expandLine (.br k a t)) s = exec (instrOf k .train a t) s1 ∧ s1.resp.isSome = true

/-- R194, R72: a program of `.br` and `.reset` lines keeps the host's order of PREDICT and TRAIN; one that trains
twice for one prediction, and one with a RESET between a PREDICT and its TRAIN, do not. That a RESET outside a pair
keeps the order is the model's choice (log 20). -/
def Obligations.BranchLinesKeepTheHostsOrder : Prop :=
  (∀ ls : List AsmLine,
    (∀ l ∈ ls, (∃ k, l = .command (instrOf k .reset 0 false)) ∨ ∃ k a t, l = .br k a t) →
    keepsBranchOrder (ls.flatMap expandLine) = true) ∧
  (∀ (k : Kind) (a : Nat) (t t' : Bool),
    keepsBranchOrder (expandLine (.br k a t) ++ [instrOf k .train a t']) = false) ∧
  (∀ (k k' : Kind) (a : Nat) (t : Bool),
    keepsBranchOrder [instrOf k .predict a false, instrOf k' .reset 0 false, instrOf k .train a t] = false)
end

