-- ==== Sys2Proof/Laws/Counter.lean ====
section
/-! SUPPORT. What the counter arithmetic and the history update answer, in the arithmetic of the rules. -/

namespace Sys2Proof.Machine

theorem predBit_eq_bit_one : ∀ c : Counter, predBit c = c.getLsbD 1 := by decide

theorem predBit_iff_two_le : ∀ c : Counter, predBit c = true ↔ 2 ≤ c.toNat := by decide

theorem ctrUpdate_toNat : ∀ (max c : Counter) (t : Bool),
    (ctrUpdate max c t).toNat = if t then min (c.toNat + 1) max.toNat else c.toNat - 1 := by decide

/-- R21: an update keeps a counter in `[0, CTR_MAX]`. -/
theorem ctrUpdate_le : ∀ {max c : Counter} (t : Bool), c ≤ max → ctrUpdate max c t ≤ max := by decide

/-- R21 for the meta-selector's rule, whatever META_GAP_ACTION is. -/
theorem metaUpdate_le (gap : MetaGapAction) : ∀ {max m : Counter} (t g l : Bool), m ≤ max →
    metaUpdate gap max m t g l ≤ max := by cases gap <;> decide

@[simp] theorem b2i_eq (t : Bool) : b2i t = if t then 1 else 0 := rfl

theorem histNext_lt {n : Nat} (hn : 1 ≤ n) (h : Nat) (t : Bool) : histNext n h t < n :=
  Nat.mod_lt _ hn

theorem localBucket_lt {entries : Nat} (he : 1 ≤ entries) (pc : Nat) : localBucket entries pc < entries :=
  Nat.mod_lt _ he

theorem metaIndex_lt {n : Nat} (hn : 1 ≤ n) (pc : Nat) : metaIndex n pc < n := Nat.mod_lt _ hn

theorem two_pow_of_isPowerOfTwo {n : Nat} (h : isPowerOfTwo n = true) : n = 2 ^ Nat.log2 n := by
  simpa [isPowerOfTwo] using h

theorem isPowerOfTwo_two_pow (e : Nat) : isPowerOfTwo (2 ^ e) = true := by
  simp [isPowerOfTwo, Nat.log2_two_pow]

theorem gshareIndex_lt {n : Nat} (hn : 1 ≤ n) (hp : isPowerOfTwo n = true) {u : GshareState}
    (hg : u.ghr < n) (pc : Nat) : gshareIndex n u pc < n := by
  have hlt : pc % n < n := Nat.mod_lt _ hn
  rw [two_pow_of_isPowerOfTwo hp] at hlt hg ⊢
  simpa [gshareIndex] using Nat.xor_lt_two_pow hlt hg

end Sys2Proof.Machine
end

