-- ==== Sys2Proof/Laws/Decode.lean ====
section
/-! SUPPORT. The fields of an encoded word, the encoder's parts, and what it takes for a word to decode. -/

namespace Sys2Proof

@[simp] theorem instrOf_unit (k : Kind) (op : Opcode) (a : Nat) (t : Bool) : (instrOf k op a t).unit = k := by
  cases k <;> cases op <;> rfl

@[simp] theorem instrOf_opcode (k : Kind) (op : Opcode) (a : Nat) (t : Bool) :
    (instrOf k op a t).opcode = op := by cases k <;> cases op <;> rfl

theorem instrOf_addr (k : Kind) (op : Opcode) (a : Nat) (t : Bool) :
    (instrOf k op a t).addr = if op = .reset then 0 else a := by cases k <;> cases op <;> rfl

theorem instrOf_outcome (k : Kind) (op : Opcode) (a : Nat) (t : Bool) :
    (instrOf k op a t).outcome = if op = .train then t else false := by cases k <;> cases op <;> rfl

theorem instrOf_parts (i : Instr) : instrOf i.unit i.opcode i.addr i.outcome = i := by cases i <;> rfl

theorem Kind.code_lt (k : Kind) : k.code < 4 := by cases k <;> decide

theorem Opcode.code_lt (op : Opcode) : op.code < 3 := by cases op <;> decide

@[simp] theorem opcodeOfCode_code (op : Opcode) : opcodeOfCode op.code = some op := by cases op <;> rfl

@[simp] theorem kindOfCode_code (k : Kind) : kindOfCode k.code = k := by cases k <;> rfl

theorem opcodeOfCode_eq_some {n : Nat} {op : Opcode} : opcodeOfCode n = some op ↔ n = op.code := by
  constructor
  · intro h
    unfold opcodeOfCode at h
    split at h <;> cases h <;> rfl
  · rintro rfl; exact opcodeOfCode_code op

@[simp] theorem i2b_b2i (t : Bool) : i2b (b2i t) = t := by cases t <;> rfl

theorem b2i_lt (t : Bool) : b2i t < 2 := by cases t <;> decide

section
variable (i : Instr)

theorem opField_encode : opField (encode i) = i.opcode.code := by
  have := i.opcode.code_lt; unfold opField encode; omega

theorem unitField_encode : unitField (encode i) = i.unit.code := by
  have := i.opcode.code_lt; have := i.unit.code_lt; unfold unitField encode; omega

theorem tField_encode : tField (encode i) = b2i i.outcome := by
  have := i.opcode.code_lt; have := i.unit.code_lt; have := b2i_lt i.outcome
  unfold tField encode; omega

theorem rsvField_encode : rsvField (encode i) = 0 := by
  have := i.opcode.code_lt; have := i.unit.code_lt; have := b2i_lt i.outcome
  unfold rsvField encode; omega

theorem addrField_encode : addrField (encode i) = i.addr := by
  have := i.opcode.code_lt; have := i.unit.code_lt; have := b2i_lt i.outcome
  unfold addrField encode; omega

end

theorem fitsWord_iff {pw w : Nat} : fitsWord pw w = true ↔ w < 2 ^ (8 + pw) := decide_eq_true_iff

/-- What it takes for a word to decode (R68). -/
theorem decode_eq_ok_iff {k : Kind} {pw w : Nat} {i : Instr} :
    decode k pw w = .ok i ↔
      w < 2 ^ (8 + pw) ∧ rsvField w = 0 ∧ unitField w = k.code ∧
        ∃ op, opField w = op.code ∧ i = instrOf k op (addrField w) (i2b (tField w)) := by
  unfold decode
  by_cases hf : fitsWord pw w = true
  · by_cases hr : rsvField w = 0
    · cases ho : opcodeOfCode (opField w) with
      | none =>
        simp only [hf, hr, ne_eq, not_true, if_false, Bool.true_eq_false]
        constructor
        · intro h; cases h
        · rintro ⟨-, -, -, op, h, -⟩; rw [h, opcodeOfCode_code] at ho; cases ho
      | some op =>
        have hop := opcodeOfCode_eq_some.mp ho
        by_cases hu : unitField w = k.code
        · simp only [hf, hr, hu, ne_eq, not_true, if_false, Bool.true_eq_false, Except.ok.injEq]
          constructor
          · intro h; exact ⟨fitsWord_iff.mp hf, trivial, trivial, op, hop, h.symm⟩
          · rintro ⟨-, -, -, op', h', rfl⟩
            have : op = op' := by
              rw [h', opcodeOfCode_code] at ho; exact (Option.some.inj ho).symm
            rw [this]
        · simp [hf, hr, hu]
    · simp [hf, hr]
  · have hw : ¬ w < 2 ^ (8 + pw) := fun h => hf (fitsWord_iff.mpr h)
    simp [hf, hw]

/-- A word written as `ADDR * 256 + HDR` with `RSV = 0` decodes to the command its header names (R69). -/
theorem decode_word {k : Kind} {pw a h : Nat} {op : Opcode} (ha : a < 2 ^ pw) (hh : h < 32)
    (ho : h % 4 = op.code) (hk : h / 4 % 4 = k.code) :
    decode k pw (256 * a + h) = .ok (instrOf k op a (i2b (h / 16 % 2))) := by
  refine decode_eq_ok_iff.mpr ⟨by rw [Nat.pow_add]; omega, by unfold rsvField; omega, by unfold unitField; omega,
    op, by unfold opField; omega, ?_⟩
  have hA : addrField (256 * a + h) = a := by unfold addrField; omega
  have hT : tField (256 * a + h) = h / 16 % 2 := by unfold tField; omega
  rw [hA, hT]

theorem decode_unit {k : Kind} {pw w : Nat} {i : Instr} (h : decode k pw w = .ok i) : i.unit = k := by
  obtain ⟨-, -, -, op, -, rfl⟩ := decode_eq_ok_iff.mp h
  exact instrOf_unit k op _ _

theorem addrField_lt {pw w : Nat} (h : w < 2 ^ (8 + pw)) : addrField w < 2 ^ pw := by
  unfold addrField
  rw [Nat.pow_add] at h
  omega

theorem decode_addr_lt {k : Kind} {pw w : Nat} {i : Instr} (h : decode k pw w = .ok i) : i.addr < 2 ^ pw := by
  obtain ⟨hw, -, -, op, -, rfl⟩ := decode_eq_ok_iff.mp h
  rw [instrOf_addr]
  split
  · exact Nat.two_pow_pos pw
  · exact addrField_lt hw

end Sys2Proof
end

