-- ==== Sys2Proof/Laws/State.lean ====
section
/-! SUPPORT. One lemma per field per update of State, so that no later proof unfolds a record update. -/

namespace Sys2Proof.Machine

variable (s : State) (u : UnitState) (r : Response) (e : CommandError) (k : Kind) (c : Config)

@[simp] theorem State.commit_cfg : (s.commit u).cfg = s.cfg := rfl
@[simp] theorem State.commit_unit : (s.commit u).unit = u := rfl
@[simp] theorem State.commit_kind : (s.commit u).kind = u.kind := rfl
@[simp] theorem State.commit_faultRecord : (s.commit u).faultRecord = s.faultRecord := rfl
@[simp] theorem State.commit_inputs : (s.commit u).inputs = s.inputs := rfl
@[simp] theorem State.commit_resp : (s.commit u).resp = none := rfl

@[simp] theorem State.respond_cfg : (s.respond r).cfg = s.cfg := rfl
@[simp] theorem State.respond_unit : (s.respond r).unit = s.unit := rfl
@[simp] theorem State.respond_kind : (s.respond r).kind = s.kind := rfl
@[simp] theorem State.respond_faultRecord : (s.respond r).faultRecord = s.faultRecord := rfl
@[simp] theorem State.respond_inputs : (s.respond r).inputs = s.inputs := rfl
@[simp] theorem State.respond_resp : (s.respond r).resp = some r := rfl

@[simp] theorem State.noResponse_cfg : s.noResponse.cfg = s.cfg := rfl
@[simp] theorem State.noResponse_unit : s.noResponse.unit = s.unit := rfl
@[simp] theorem State.noResponse_kind : s.noResponse.kind = s.kind := rfl
@[simp] theorem State.noResponse_faultRecord : s.noResponse.faultRecord = s.faultRecord := rfl
@[simp] theorem State.noResponse_inputs : s.noResponse.inputs = s.inputs := rfl
@[simp] theorem State.noResponse_resp : s.noResponse.resp = none := rfl

@[simp] theorem State.takeRst_cfg : s.takeRst.cfg = s.cfg := rfl
@[simp] theorem State.takeRst_unit : s.takeRst.unit = unitReset s.kind s.cfg := rfl
@[simp] theorem State.takeRst_faultRecord : s.takeRst.faultRecord = none := rfl
@[simp] theorem State.takeRst_inputs : s.takeRst.inputs = s.inputs := rfl
@[simp] theorem State.takeRst_resp : s.takeRst.resp = none := rfl

@[simp] theorem State.latchFault_cfg : (s.latchFault e).cfg = s.cfg := rfl
@[simp] theorem State.latchFault_unit : (s.latchFault e).unit = s.unit := rfl
@[simp] theorem State.latchFault_kind : (s.latchFault e).kind = s.kind := rfl
@[simp] theorem State.latchFault_faultRecord : (s.latchFault e).faultRecord = some e := rfl
@[simp] theorem State.latchFault_inputs : (s.latchFault e).inputs = s.inputs := rfl
@[simp] theorem State.latchFault_resp : (s.latchFault e).resp = none := rfl

@[simp] theorem State.afterInput_cfg : s.afterInput.cfg = s.cfg := rfl
@[simp] theorem State.afterInput_unit : s.afterInput.unit = s.unit := rfl
@[simp] theorem State.afterInput_kind : s.afterInput.kind = s.kind := rfl
@[simp] theorem State.afterInput_faultRecord : s.afterInput.faultRecord = s.faultRecord := rfl
@[simp] theorem State.afterInput_inputs : s.afterInput.inputs = s.inputs.tail := rfl
@[simp] theorem State.afterInput_resp : s.afterInput.resp = s.resp := rfl

@[simp] theorem State.resetFor_cfg : (State.resetFor k c).cfg = c := rfl
@[simp] theorem State.resetFor_unit : (State.resetFor k c).unit = unitReset k c := rfl
@[simp] theorem State.resetFor_faultRecord : (State.resetFor k c).faultRecord = none := rfl
@[simp] theorem State.resetFor_inputs : (State.resetFor k c).inputs = [] := rfl
@[simp] theorem State.resetFor_resp : (State.resetFor k c).resp = none := rfl

@[simp] theorem unitReset_kind : (unitReset k c).kind = k := by cases k <;> rfl

@[simp] theorem State.takeRst_kind : s.takeRst.kind = s.kind := unitReset_kind s.kind s.cfg

@[simp] theorem State.resetFor_kind : (State.resetFor k c).kind = k := unitReset_kind k c

@[simp] theorem State.selectUnit_kind : (s.selectUnit k).kind = k := by
  unfold State.selectUnit
  split
  · assumption
  · exact unitReset_kind k s.cfg

@[simp] theorem State.selectUnit_cfg : (s.selectUnit k).cfg = s.cfg := by
  unfold State.selectUnit; split <;> rfl

@[simp] theorem State.selectUnit_inputs : (s.selectUnit k).inputs = s.inputs := by
  unfold State.selectUnit; split <;> rfl

@[simp] theorem State.selectUnit_resp : (s.selectUnit k).resp = s.resp := by
  unfold State.selectUnit; split <;> rfl

theorem State.selectUnit_unit :
    (s.selectUnit k).unit = if s.kind = k then s.unit else unitReset k s.cfg := by
  unfold State.selectUnit; split <;> rfl

end Sys2Proof.Machine
end

