-- ==== Sys2Proof/Laws/Ops.lean ====
section
/-! SUPPORT. The table primitives (R41, R42), and what each shared operation answers. -/

namespace Sys2Proof.Machine

theorem tableRead_of_lt {table : List Counter} {i : Nat} (h : i < table.length) :
    ∃ c, tableRead table i = some c := ⟨table[i], List.getElem?_eq_getElem h⟩

@[simp] theorem tableWrite_length (table : List Counter) (i : Nat) (v : Counter) :
    (tableWrite table i v).length = table.length := List.length_set

theorem tableRead_tableWrite_same {table : List Counter} {i : Nat} (h : i < table.length) (v : Counter) :
    tableRead (tableWrite table i v) i = some v := by
  simp [tableRead, tableWrite, h]

theorem tableRead_tableWrite_other (table : List Counter) {i j : Nat} (v : Counter) (h : j ≠ i) :
    tableRead (tableWrite table i v) j = tableRead table j := by
  simp [tableRead, tableWrite, List.getElem?_set_ne h.symm]

theorem lt_length_of_tableRead {table : List Counter} {i : Nat} {c : Counter}
    (h : tableRead table i = some c) : i < table.length :=
  (List.getElem?_eq_some_iff.mp h).1

@[simp] theorem tableReset_length (c : Config) : (tableReset c).length = c.n := List.length_replicate

theorem tableRead_tableReset {c : Config} {i : Nat} (h : i < c.n) : tableRead (tableReset c) i = some c.ctrInit := by
  simp [tableRead, tableReset, h]

theorem inTable_some {α : Type} (a : α) (f : α → Result) : inTable (some a) f = f a := rfl

theorem inTable_eq_next {α : Type} {x : Option α} {f : α → Result} {s' : State}
    (h : inTable x f = .next s') : ∃ a, x = some a ∧ f a = .next s' := by
  cases x with
  | none => cases h
  | some a => exact ⟨a, rfl, h⟩

theorem inTable_eq_commandError {α : Type} {x : Option α} {f : α → Result} {e : CommandError}
    (h : inTable x f = .fault (.commandError e)) : ∃ a, x = some a ∧ f a = .fault (.commandError e) := by
  cases x with
  | none => cases h
  | some a => exact ⟨a, rfl, h⟩

section
variable {s : State} (i : Instr)

theorem onSct_of {u : SctState} (h : s.unit = .sct u) (f : SctState → Result) : onSct i s f = f u := by
  simp [onSct, h]

theorem onLocal_of {u : LocalState} (h : s.unit = .loc u) (f : LocalState → Result) :
    onLocal i s f = f u := by simp [onLocal, h]

theorem onGshare_of {u : GshareState} (h : s.unit = .gshare u) (f : GshareState → Result) :
    onGshare i s f = f u := by simp [onGshare, h]

theorem onTour_of {u : TourState} (h : s.unit = .tour u) (f : TourState → Result) :
    onTour i s f = f u := by simp [onTour, h]

theorem onSct_eq_next {f : SctState → Result} {s' : State} (h : onSct i s f = .next s') :
    ∃ u, s.unit = .sct u ∧ f u = .next s' := by
  unfold onSct at h
  split at h
  · next u hu => exact ⟨u, hu, h⟩
  all_goals cases h

theorem onLocal_eq_next {f : LocalState → Result} {s' : State} (h : onLocal i s f = .next s') :
    ∃ u, s.unit = .loc u ∧ f u = .next s' := by
  unfold onLocal at h
  split at h
  · cases h
  · next u hu => exact ⟨u, hu, h⟩
  all_goals cases h

theorem onGshare_eq_next {f : GshareState → Result} {s' : State} (h : onGshare i s f = .next s') :
    ∃ u, s.unit = .gshare u ∧ f u = .next s' := by
  unfold onGshare at h
  split at h
  · cases h
  · cases h
  · next u hu => exact ⟨u, hu, h⟩
  · cases h

theorem onTour_eq_next {f : TourState → Result} {s' : State} (h : onTour i s f = .next s') :
    ∃ u, s.unit = .tour u ∧ f u = .next s' := by
  unfold onTour at h
  split at h
  · cases h
  · cases h
  · cases h
  · next u hu => exact ⟨u, hu, h⟩

end

end Sys2Proof.Machine
end

