-- ==== Sys2Proof/Laws/Units.lean ====
section
/-! SUPPORT. For each unit's PREDICT and TRAIN: what it answers on a state with legal values, what it can answer at
all, and that it keeps the legal values (R21, R105, R125). -/

namespace Sys2Proof.Machine

/-- Writing a legal counter keeps a table's legal values (R21, R23). -/
theorem tableWf_tableWrite {cfg : Config} {table : List Counter} (h : tableWf cfg table) (i : Nat) {v : Counter}
    (hv : v ≤ cfg.ctrMax) : tableWf cfg (tableWrite table i v) := by
  refine ⟨by simpa using h.1, fun x hx => ?_⟩
  rcases List.mem_or_eq_of_mem_set hx with hx | rfl
  · exact h.2 x hx
  · exact hv

/-- A counter read from a table of legal values is legal (R21). -/
theorem le_of_tableRead {cfg : Config} {table : List Counter} (h : tableWf cfg table) {i : Nat} {v : Counter}
    (hv : tableRead table i = some v) : v ≤ cfg.ctrMax := h.2 v (List.mem_of_getElem? hv)

section
variable {cfg : Config} {u : LocalState}

theorem localIndex_of_wf (he : 1 ≤ cfg.lhrEntries) (h : localWf cfg u) (pc : Nat) :
    ∃ idx, localIndex cfg.lhrEntries u pc = some idx ∧ idx < cfg.n := by
  have hb : localBucket cfg.lhrEntries pc < u.lhr.length := h.1 ▸ localBucket_lt he pc
  exact ⟨u.lhr[localBucket cfg.lhrEntries pc], List.getElem?_eq_getElem hb, h.2.1 _ (List.getElem_mem hb)⟩

/-- What LOCAL.PREDICT answers: bit 1 of the counter at the bucket's history. -/
theorem localPredict_eq {entries pc idx : Nat} {c : Counter} (hi : localIndex entries u pc = some idx)
    (hc : tableRead u.phtL idx = some c) : localPredict entries u pc = some (predBit c) := by
  simp [localPredict, hi, hc]

/-- What LOCAL.TRAIN answers. -/
theorem localTrain_eq {pc idx : Nat} {c : Counter} (t : Bool) (hi : localIndex cfg.lhrEntries u pc = some idx)
    (hc : tableRead u.phtL idx = some c) :
    localTrain cfg u pc t = some ⟨u.lhr.set (localBucket cfg.lhrEntries pc) (histNext cfg.n idx t),
      tableWrite u.phtL idx (ctrUpdate cfg.ctrMax c t)⟩ := by
  simp [localTrain, hi, hc]

theorem localReads_of_wf (he : 1 ≤ cfg.lhrEntries) (h : localWf cfg u) (pc : Nat) :
    ∃ idx c, localIndex cfg.lhrEntries u pc = some idx ∧ tableRead u.phtL idx = some c := by
  obtain ⟨idx, hi, hlt⟩ := localIndex_of_wf he h pc
  obtain ⟨c, hc⟩ := tableRead_of_lt (table := u.phtL) (i := idx) (by rw [h.2.2.1]; exact hlt)
  exact ⟨idx, c, hi, hc⟩

theorem localTrain_cases {pc : Nat} {t : Bool} {u' : LocalState} (h : localTrain cfg u pc t = some u') :
    ∃ idx c, localIndex cfg.lhrEntries u pc = some idx ∧ tableRead u.phtL idx = some c ∧
      u' = ⟨u.lhr.set (localBucket cfg.lhrEntries pc) (histNext cfg.n idx t),
        tableWrite u.phtL idx (ctrUpdate cfg.ctrMax c t)⟩ := by
  cases hi : localIndex cfg.lhrEntries u pc with
  | none => simp [localTrain, hi] at h
  | some idx =>
    cases hc : tableRead u.phtL idx with
    | none => simp [localTrain, hi, hc] at h
    | some c => exact ⟨idx, c, rfl, hc, by simpa [localTrain, hi, hc] using h.symm⟩

theorem localTrain_wf (hn : 1 ≤ cfg.n) (hu : localWf cfg u) {pc : Nat} {t : Bool} {u' : LocalState}
    (h : localTrain cfg u pc t = some u') : localWf cfg u' := by
  obtain ⟨idx, c, -, hc, rfl⟩ := localTrain_cases h
  refine ⟨by simpa using hu.1, fun x hx => ?_,
    tableWf_tableWrite hu.2.2 idx (ctrUpdate_le t (le_of_tableRead hu.2.2 hc))⟩
  rcases List.mem_or_eq_of_mem_set hx with hx | rfl
  · exact hu.2.1 x hx
  · exact histNext_lt hn idx t

end

section
variable {cfg : Config} {u : GshareState}

/-- What GSHARE.PREDICT answers: bit 1 of the counter at the XOR index. -/
theorem gsharePredict_eq {n pc : Nat} {c : Counter} (hc : tableRead u.phtG (gshareIndex n u pc) = some c) :
    gsharePredict n u pc = some (predBit c) := by simp [gsharePredict, hc]

/-- What GSHARE.TRAIN answers. -/
theorem gshareTrain_eq {pc : Nat} {c : Counter} (t : Bool)
    (hc : tableRead u.phtG (gshareIndex cfg.n u pc) = some c) :
    gshareTrain cfg u pc t = some ⟨histNext cfg.n u.ghr t,
      tableWrite u.phtG (gshareIndex cfg.n u pc) (ctrUpdate cfg.ctrMax c t)⟩ := by simp [gshareTrain, hc]

theorem gshareRead_of_wf (hn : 1 ≤ cfg.n) (hp : isPowerOfTwo cfg.n = true) (h : gshareWf cfg u) (pc : Nat) :
    ∃ c, tableRead u.phtG (gshareIndex cfg.n u pc) = some c :=
  tableRead_of_lt (by rw [h.2.1]; exact gshareIndex_lt hn hp h.1 pc)

theorem gshareTrain_cases {pc : Nat} {t : Bool} {u' : GshareState} (h : gshareTrain cfg u pc t = some u') :
    ∃ c, tableRead u.phtG (gshareIndex cfg.n u pc) = some c ∧
      u' = ⟨histNext cfg.n u.ghr t,
        tableWrite u.phtG (gshareIndex cfg.n u pc) (ctrUpdate cfg.ctrMax c t)⟩ := by
  cases hc : tableRead u.phtG (gshareIndex cfg.n u pc) with
  | none => simp [gshareTrain, hc] at h
  | some c => exact ⟨c, rfl, by simpa [gshareTrain, hc] using h.symm⟩

theorem gshareTrain_wf (hn : 1 ≤ cfg.n) (hu : gshareWf cfg u) {pc : Nat} {t : Bool} {u' : GshareState}
    (h : gshareTrain cfg u pc t = some u') : gshareWf cfg u' := by
  obtain ⟨c, hc, rfl⟩ := gshareTrain_cases h
  exact ⟨histNext_lt hn _ t, tableWf_tableWrite hu.2 _ (ctrUpdate_le t (le_of_tableRead hu.2 hc))⟩

end

section
variable {cfg : Config} {u : TourState}

/-- What TOUR.PREDICT answers: the trusted sub-predictor's answer. -/
theorem tourPredict_eq {pc : Nat} {m : Counter} (hm : tableRead u.metaTable (metaIndex cfg.n pc) = some m) :
    tourPredict cfg u pc =
      if predBit m then gsharePredict cfg.n u.subG pc else localPredict cfg.lhrEntries u.subL pc := by
  simp [tourPredict, pickGlobal, hm]

theorem tourTrain_cases {pc : Nat} {t : Bool} {u' : TourState} (h : tourTrain cfg u pc t = some u') :
    ∃ g l m subL subG, gsharePredict cfg.n u.subG pc = some g ∧ localPredict cfg.lhrEntries u.subL pc = some l ∧
      tableRead u.metaTable (metaIndex cfg.n pc) = some m ∧ localTrain cfg u.subL pc t = some subL ∧
      gshareTrain cfg u.subG pc t = some subG ∧
      u' = ⟨subL, subG, tableWrite u.metaTable (metaIndex cfg.n pc)
        (metaUpdate cfg.metaGap cfg.ctrMax m t g l)⟩ := by
  cases hg : gsharePredict cfg.n u.subG pc with
  | none => simp [tourTrain, hg] at h
  | some g =>
  cases hl : localPredict cfg.lhrEntries u.subL pc with
  | none => simp [tourTrain, hg, hl] at h
  | some l =>
  cases hm : tableRead u.metaTable (metaIndex cfg.n pc) with
  | none => simp [tourTrain, hg, hl, hm] at h
  | some m =>
  cases hL : localTrain cfg u.subL pc t with
  | none => simp [tourTrain, hg, hl, hm, hL] at h
  | some subL =>
  cases hG : gshareTrain cfg u.subG pc t with
  | none => simp [tourTrain, hg, hl, hm, hL, hG] at h
  | some subG =>
    exact ⟨g, l, m, subL, subG, rfl, rfl, rfl, rfl, rfl, by
      simpa [tourTrain, hg, hl, hm, hL, hG] using h.symm⟩

/-- What TOUR.TRAIN answers. -/
theorem tourTrain_eq {pc : Nat} {t g l : Bool} {m : Counter} {subL : LocalState} {subG : GshareState}
    (hg : gsharePredict cfg.n u.subG pc = some g) (hl : localPredict cfg.lhrEntries u.subL pc = some l)
    (hm : tableRead u.metaTable (metaIndex cfg.n pc) = some m) (hL : localTrain cfg u.subL pc t = some subL)
    (hG : gshareTrain cfg u.subG pc t = some subG) :
    tourTrain cfg u pc t = some ⟨subL, subG, tableWrite u.metaTable (metaIndex cfg.n pc)
      (metaUpdate cfg.metaGap cfg.ctrMax m t g l)⟩ := by
  simp [tourTrain, hg, hl, hm, hL, hG]

theorem tourTrain_wf (hn : 1 ≤ cfg.n) (hu : tourWf cfg u) {pc : Nat} {t : Bool} {u' : TourState}
    (h : tourTrain cfg u pc t = some u') : tourWf cfg u' := by
  obtain ⟨g, l, m, subL, subG, -, -, hm, hL, hG, rfl⟩ := tourTrain_cases h
  exact ⟨localTrain_wf hn hu.1 hL, gshareTrain_wf hn hu.2.1 hG,
    tableWf_tableWrite hu.2.2 _ (metaUpdate_le _ t g l (le_of_tableRead hu.2.2 hm))⟩

end

/-! What `numbersOk` and `legal` say, and that the reset values are legal under them. -/

section
variable {cfg : Config} (h : cfg.numbersOk = true)
include h

theorem one_le_lhrEntries_of_numbersOk : 1 ≤ cfg.lhrEntries := by
  simp [Config.numbersOk] at h; exact h.1.1

theorem ctrInit_le_of_numbersOk : cfg.ctrInit ≤ cfg.ctrMax := by
  simp [Config.numbersOk] at h; exact h.1.2

theorem histInit_lt_of_numbersOk : cfg.histInit < cfg.n := by
  simp [Config.numbersOk] at h; exact h.2

theorem tableReset_wf : tableWf cfg (tableReset cfg) := by
  refine ⟨tableReset_length cfg, fun v hv => ?_⟩
  rw [(List.mem_replicate.mp hv).2]
  exact ctrInit_le_of_numbersOk h

theorem localReset_wf : localWf cfg (localResetState cfg) := by
  refine ⟨List.length_replicate, fun x hx => ?_, tableReset_wf h⟩
  rw [(List.mem_replicate.mp hx).2]
  exact histInit_lt_of_numbersOk h

theorem gshareReset_wf : gshareWf cfg (gshareResetState cfg) := ⟨histInit_lt_of_numbersOk h, tableReset_wf h⟩

theorem tourReset_wf : tourWf cfg (tourResetState cfg) := ⟨localReset_wf h, gshareReset_wf h, tableReset_wf h⟩

theorem unitReset_wf (k : Kind) : unitWf cfg (unitReset k cfg) := by
  cases k
  · exact tableReset_wf h
  · exact localReset_wf h
  · exact gshareReset_wf h
  · exact tourReset_wf h

end

/-- R5's own numbers fit every table. -/
theorem numbersOk_of_spec {n : Nat} (hn : 1 ≤ n) (w : Nat) (gap : MetaGapAction) :
    Config.numbersOk { n := n, pcWidth := w, metaGap := gap } = true := by
  have h0 : specHistInit < n := hn
  have h1 : (1 ≤ specLhrEntries) ∧ (specCtrInit ≤ specCtrMax) := by decide
  simp [Config.numbersOk, h0, h1]

theorem one_le_of_legal {k : Kind} {c : Config} (h : c.legal k = true) : 1 ≤ c.n := by
  simp [Config.legal] at h
  omega

theorem isPowerOfTwo_of_legal {k : Kind} {c : Config} (h : c.legal k = true)
    (hk : k.needsPowerOfTwo = true) : isPowerOfTwo c.n = true := by
  simp [Config.legal, hk] at h
  exact h.1.2

end Sys2Proof.Machine
end

