-- ==== Sys2Proof/Laws/Exec.lean ====
section
/-! SUPPORT. What a command can do: one inversion lemma of `exec`, and what a step can do over it. -/

namespace Sys2Proof.Machine

variable {s s' : State}

/-! One equation per command on an instance of its own unit. -/

section
variable {u : SctState} (h : s.unit = .sct u)
include h

theorem exec_sctReset : exec .sctReset s = .next (s.commit (.sct (sctResetState s.cfg))) := onSct_of _ h _

theorem exec_sctPredict (idx : Nat) : exec (.sctPredict idx) s =
    if s.cfg.n ≤ idx then s.raise (.indexOutOfRange idx)
    else inTable (tableRead u.ct idx) fun c => .next (s.respond ⟨predBit c, some c⟩) := onSct_of _ h _

theorem exec_sctTrain (idx : Nat) (t : Bool) : exec (.sctTrain idx t) s =
    if s.cfg.n ≤ idx then s.raise (.indexOutOfRange idx)
    else inTable (tableRead u.ct idx) fun c =>
      .next (s.commit (.sct ⟨tableWrite u.ct idx (ctrUpdate s.cfg.ctrMax c t)⟩)) := onSct_of _ h _

end

section
variable {u : LocalState} (h : s.unit = .loc u)
include h

theorem exec_localReset : exec .localReset s = .next (s.commit (.loc (localResetState s.cfg))) :=
  onLocal_of _ h _

theorem exec_localPredict (pc : Nat) : exec (.localPredict pc) s =
    inTable (localPredict s.cfg.lhrEntries u pc) fun taken => .next (s.respond ⟨taken, none⟩) := onLocal_of _ h _

theorem exec_localTrain (pc : Nat) (t : Bool) : exec (.localTrain pc t) s =
    inTable (localTrain s.cfg u pc t) fun u' => .next (s.commit (.loc u')) := onLocal_of _ h _

end

section
variable {u : GshareState} (h : s.unit = .gshare u)
include h

theorem exec_gshareReset : exec .gshareReset s = .next (s.commit (.gshare (gshareResetState s.cfg))) :=
  onGshare_of _ h _

theorem exec_gsharePredict (pc : Nat) : exec (.gsharePredict pc) s =
    inTable (gsharePredict s.cfg.n u pc) fun taken => .next (s.respond ⟨taken, none⟩) := onGshare_of _ h _

theorem exec_gshareTrain (pc : Nat) (t : Bool) : exec (.gshareTrain pc t) s =
    inTable (gshareTrain s.cfg u pc t) fun u' => .next (s.commit (.gshare u')) := onGshare_of _ h _

end

section
variable {u : TourState} (h : s.unit = .tour u)
include h

theorem exec_tourReset : exec .tourReset s = .next (s.commit (.tour (tourResetState s.cfg))) :=
  onTour_of _ h _

theorem exec_tourPredict (pc : Nat) : exec (.tourPredict pc) s =
    inTable (tourPredict s.cfg u pc) fun taken => .next (s.respond ⟨taken, none⟩) := onTour_of _ h _

theorem exec_tourTrain (pc : Nat) (t : Bool) : exec (.tourTrain pc t) s =
    inTable (tourTrain s.cfg u pc t) fun u' => .next (s.commit (.tour u')) := onTour_of _ h _

end

theorem State.kind_of {u : UnitState} (h : s.unit = u) : s.kind = u.kind := by rw [State.kind, h]

/-- The only error a command can raise on an instance of its own unit: an SCT index of N or more (R175). -/
theorem exec_commandError_cases {i : Instr} {e : CommandError} (hu : i.unit = s.kind)
    (h : exec i s = .fault (.commandError e)) :
    e = .indexOutOfRange i.addr ∧ s.kind = .sct ∧ i.opcode ≠ .reset ∧ s.cfg.n ≤ i.addr := by
  cases hs : s.unit with
  | sct u =>
    have hk : s.kind = .sct := State.kind_of hs
    rw [hk] at hu
    cases i <;> cases hu
    · rw [exec_sctReset hs] at h; cases h
    · rw [exec_sctPredict hs] at h
      split at h
      · cases h; exact ⟨rfl, hk, by simp [Instr.opcode], by assumption⟩
      · obtain ⟨_, _, h⟩ := inTable_eq_commandError h; cases h
    · rw [exec_sctTrain hs] at h
      split at h
      · cases h; exact ⟨rfl, hk, by simp [Instr.opcode], by assumption⟩
      · obtain ⟨_, _, h⟩ := inTable_eq_commandError h; cases h
  | loc u =>
    rw [State.kind_of hs] at hu
    cases i <;> cases hu
    · rw [exec_localReset hs] at h; cases h
    · rw [exec_localPredict hs] at h; obtain ⟨_, _, h⟩ := inTable_eq_commandError h; cases h
    · rw [exec_localTrain hs] at h; obtain ⟨_, _, h⟩ := inTable_eq_commandError h; cases h
  | gshare u =>
    rw [State.kind_of hs] at hu
    cases i <;> cases hu
    · rw [exec_gshareReset hs] at h; cases h
    · rw [exec_gsharePredict hs] at h; obtain ⟨_, _, h⟩ := inTable_eq_commandError h; cases h
    · rw [exec_gshareTrain hs] at h; obtain ⟨_, _, h⟩ := inTable_eq_commandError h; cases h
  | tour u =>
    rw [State.kind_of hs] at hu
    cases i <;> cases hu
    · rw [exec_tourReset hs] at h; cases h
    · rw [exec_tourPredict hs] at h; obtain ⟨_, _, h⟩ := inTable_eq_commandError h; cases h
    · rw [exec_tourTrain hs] at h; obtain ⟨_, _, h⟩ := inTable_eq_commandError h; cases h

/-- Everything a command that completes can do: a PREDICT responds, a RESET or TRAIN commits a unit state of the
same kind. -/
theorem exec_next_cases {i : Instr} (h : exec i s = .next s') :
    i.unit = s.kind ∧
      ((i.opcode = .predict ∧ ∃ r, s' = s.respond r) ∨
        (i.opcode ≠ .predict ∧ ∃ u, s' = s.commit u ∧ u.kind = s.kind)) := by
  cases i with
  | sctReset =>
    obtain ⟨u, hu, h⟩ := onSct_eq_next _ h
    cases h
    exact ⟨by simp [State.kind, hu, UnitState.kind, Instr.unit],
      .inr ⟨by decide, _, rfl, by simp [State.kind, hu, UnitState.kind]⟩⟩
  | sctPredict idx =>
    obtain ⟨u, hu, h⟩ := onSct_eq_next _ h
    split at h
    · cases h
    · obtain ⟨c, -, h⟩ := inTable_eq_next h
      cases h
      exact ⟨by simp [State.kind, hu, UnitState.kind, Instr.unit], .inl ⟨rfl, _, rfl⟩⟩
  | sctTrain idx t =>
    obtain ⟨u, hu, h⟩ := onSct_eq_next _ h
    split at h
    · cases h
    · obtain ⟨c, -, h⟩ := inTable_eq_next h
      cases h
      exact ⟨by simp [State.kind, hu, UnitState.kind, Instr.unit],
        .inr ⟨by simp [Instr.opcode], _, rfl, by simp [State.kind, hu, UnitState.kind]⟩⟩
  | localReset =>
    obtain ⟨u, hu, h⟩ := onLocal_eq_next _ h
    cases h
    exact ⟨by simp [State.kind, hu, UnitState.kind, Instr.unit],
      .inr ⟨by decide, _, rfl, by simp [State.kind, hu, UnitState.kind]⟩⟩
  | localPredict pc =>
    obtain ⟨u, hu, h⟩ := onLocal_eq_next _ h
    obtain ⟨c, -, h⟩ := inTable_eq_next h
    cases h
    exact ⟨by simp [State.kind, hu, UnitState.kind, Instr.unit], .inl ⟨rfl, _, rfl⟩⟩
  | localTrain pc t =>
    obtain ⟨u, hu, h⟩ := onLocal_eq_next _ h
    obtain ⟨c, -, h⟩ := inTable_eq_next h
    cases h
    exact ⟨by simp [State.kind, hu, UnitState.kind, Instr.unit],
      .inr ⟨by simp [Instr.opcode], _, rfl, by simp [State.kind, hu, UnitState.kind]⟩⟩
  | gshareReset =>
    obtain ⟨u, hu, h⟩ := onGshare_eq_next _ h
    cases h
    exact ⟨by simp [State.kind, hu, UnitState.kind, Instr.unit],
      .inr ⟨by decide, _, rfl, by simp [State.kind, hu, UnitState.kind]⟩⟩
  | gsharePredict pc =>
    obtain ⟨u, hu, h⟩ := onGshare_eq_next _ h
    obtain ⟨c, -, h⟩ := inTable_eq_next h
    cases h
    exact ⟨by simp [State.kind, hu, UnitState.kind, Instr.unit], .inl ⟨rfl, _, rfl⟩⟩
  | gshareTrain pc t =>
    obtain ⟨u, hu, h⟩ := onGshare_eq_next _ h
    obtain ⟨c, -, h⟩ := inTable_eq_next h
    cases h
    exact ⟨by simp [State.kind, hu, UnitState.kind, Instr.unit],
      .inr ⟨by simp [Instr.opcode], _, rfl, by simp [State.kind, hu, UnitState.kind]⟩⟩
  | tourReset =>
    obtain ⟨u, hu, h⟩ := onTour_eq_next _ h
    cases h
    exact ⟨by simp [State.kind, hu, UnitState.kind, Instr.unit],
      .inr ⟨by decide, _, rfl, by simp [State.kind, hu, UnitState.kind]⟩⟩
  | tourPredict pc =>
    obtain ⟨u, hu, h⟩ := onTour_eq_next _ h
    obtain ⟨c, -, h⟩ := inTable_eq_next h
    cases h
    exact ⟨by simp [State.kind, hu, UnitState.kind, Instr.unit], .inl ⟨rfl, _, rfl⟩⟩
  | tourTrain pc t =>
    obtain ⟨u, hu, h⟩ := onTour_eq_next _ h
    obtain ⟨c, -, h⟩ := inTable_eq_next h
    cases h
    exact ⟨by simp [State.kind, hu, UnitState.kind, Instr.unit],
      .inr ⟨by simp [Instr.opcode], _, rfl, by simp [State.kind, hu, UnitState.kind]⟩⟩

/-- Everything a step that goes on can do. -/
theorem step_next_cases (h : step s = .next s') :
    (s' = s.noResponse ∧ s.inputs = []) ∨
      ∃ c rest, s.inputs = c :: rest ∧
        ((c.rst = true ∧ s' = State.takeRst { s with inputs := rest }) ∨
          (c.rst = false ∧ (s.faultPort || !c.cmdValid) = true ∧
            s' = State.noResponse { s with inputs := rest }) ∨
          (c.rst = false ∧ s.faultRecord = none ∧ c.cmdValid = true ∧
            ∃ i, decode s.kind s.cfg.pcWidth c.cmd = .ok i ∧
              exec i { s with inputs := rest } = .next s')) := by
  unfold step nextCycle at h
  split at h
  · next hi => cases h; exact .inl ⟨rfl, hi⟩
  · next c rest hi =>
    refine .inr ⟨c, rest, hi, ?_⟩
    unfold runCycle at h
    split at h
    · next hr => cases h; exact .inl ⟨hr, rfl⟩
    · next hr =>
      have hr : c.rst = false := by simpa using hr
      split at h
      · next hf => cases h; exact .inr (.inl ⟨hr, hf, rfl⟩)
      · next hf =>
        simp [State.faultPort] at hf
        refine .inr (.inr ⟨hr, hf.1, hf.2, ?_⟩)
        unfold runWord at h
        split at h
        · next i hd => exact ⟨i, hd, h⟩
        · cases h
        · cases h

/-- Everything a step that ends with a refused command can be: an illegal word, or an SCT index of N or more. -/
theorem step_commandError_cases {e : CommandError} (h : step s = .fault (.commandError e)) :
    ∃ c rest, s.inputs = c :: rest ∧ c.rst = false ∧ c.cmdValid = true ∧ s.faultRecord = none ∧
      ((∃ r, decode s.kind s.cfg.pcWidth c.cmd = .error (.illegal r) ∧ e = .illegalCommand r c.cmd) ∨
        ∃ i, decode s.kind s.cfg.pcWidth c.cmd = .ok i ∧ e = .indexOutOfRange i.addr ∧ s.kind = .sct ∧
          i.opcode ≠ .reset ∧ s.cfg.n ≤ i.addr) := by
  unfold step nextCycle at h
  split at h
  · cases h
  · next c rest hi =>
    refine ⟨c, rest, hi, ?_⟩
    unfold runCycle at h
    split at h
    · cases h
    · next hr =>
      split at h
      · cases h
      · next hf =>
        simp [State.faultPort] at hf
        refine ⟨by simpa using hr, hf.2, hf.1, ?_⟩
        unfold runWord at h
        split at h
        · next i hd => exact .inr ⟨i, hd, exec_commandError_cases (s := { s with inputs := rest }) (decode_unit hd) h⟩
        · next r hd => cases h; exact .inl ⟨r, hd, rfl⟩
        · cases h

end Sys2Proof.Machine
end

