-- ==== Sys2Proof/Laws/PerInstr.lean ====
section
/-! SUPPORT. The family `EncodeFits`: the word of a well-formed command is a word of `8 + PC_WIDTH` bits (R61), for
every constructor. -/

namespace Sys2Proof.Laws.EncodeFits

def Statement (i : Instr) : Prop := ∀ pw, i.wf pw = true → encode i < 2 ^ (8 + pw)

theorem of_addr (i : Instr) : Statement i := by
  intro pw h
  have ha : i.addr < 2 ^ pw := of_decide_eq_true h
  have := i.opcode.code_lt; have := i.unit.code_lt; have := b2i_lt i.outcome
  unfold encode
  rw [Nat.pow_add]
  omega

theorem sctReset : Statement .sctReset := of_addr _
theorem sctPredict (idx : Nat) : Statement (.sctPredict idx) := of_addr _
theorem sctTrain (idx : Nat) (t : Bool) : Statement (.sctTrain idx t) := of_addr _
theorem localReset : Statement .localReset := of_addr _
theorem localPredict (pc : Nat) : Statement (.localPredict pc) := of_addr _
theorem localTrain (pc : Nat) (t : Bool) : Statement (.localTrain pc t) := of_addr _
theorem gshareReset : Statement .gshareReset := of_addr _
theorem gsharePredict (pc : Nat) : Statement (.gsharePredict pc) := of_addr _
theorem gshareTrain (pc : Nat) (t : Bool) : Statement (.gshareTrain pc t) := of_addr _
theorem tourReset : Statement .tourReset := of_addr _
theorem tourPredict (pc : Nat) : Statement (.tourPredict pc) := of_addr _
theorem tourTrain (pc : Nat) (t : Bool) : Statement (.tourTrain pc t) := of_addr _

end Sys2Proof.Laws.EncodeFits
end

