-- ==== Sys2Proof/Tests/Slice0.lean ====
section
/-! SUPPORT. The model's own tests. Expected results are those of spec/95_test_vectors.md, whose row each test names,
or a hand reading of the rule named. The `witness_` theorems give, for each obligation with hypotheses, a state and
operands that meet them. -/

namespace Sys2Proof.Tests

open Sys2Proof Sys2Proof.Machine

/-! ### Small states -/

def cfgOf (n : Nat) : Config := { n := n }

def inst (n : Nat) (u : UnitState) : State := ⟨cfgOf n, u, none, [], none⟩

def sctOf (ct : List Counter) : State := inst ct.length (.sct ⟨ct⟩)

def lhrOf (b h : Nat) : List Nat := (List.replicate 128 0).set b h

def locOf (b h : Nat) (pht : List Counter) : State := inst pht.length (.loc ⟨lhrOf b h, pht⟩)

def gshareOf (ghr : Nat) (pht : List Counter) : State := inst pht.length (.gshare ⟨ghr, pht⟩)

/-- The start of the vectors TV and TS: N = 4, META[1], SUB_L.PHT_L[0] and SUB_G.PHT_G[1] as given. -/
def tourOf (m l g : Counter) : TourState :=
  ⟨⟨List.replicate 128 0, [l, 2, 2, 2]⟩, ⟨0, [2, g, 2, 2]⟩, [2, m, 2, 2]⟩

def tourS (m l g : Counter) : State := inst 4 (.tour (tourOf m l g))

def unitAfter : Result → Option UnitState
  | .next s => some s.unit
  | .fault _ => none
  | .refused _ => none

def respAfter : Result → Option Response
  | .next s => s.resp
  | .fault _ => none
  | .refused _ => none

def faultOf : Result → Option Fault
  | .next _ => none
  | .fault f => some f
  | .refused _ => none

def recordAfter : Result → Option (Option CommandError)
  | .next s => some s.faultRecord
  | .fault _ => none
  | .refused _ => none

def refusalOf : Result → Option Refusal
  | .next _ => none
  | .fault _ => none
  | .refused r => some r

/-! ### Well-formedness -/

theorem smoke_addr_too_wide : Instr.wf 4 (.localPredict 16) = false := by decide
theorem smoke_addr_fits : Instr.wf 4 (.localPredict 15) = true := by decide

/-! ### Decoding, each constructor from a word written out from R61 and R69 -/

theorem decode_sct_reset : decode .sct 64 0b00000000 = .ok .sctReset := by rfl
theorem decode_sct_predict : decode .sct 64 0x000000000000000301 = .ok (.sctPredict 3) := by rfl
theorem decode_sct_predict_t_ignored : decode .sct 64 0x000000000000000211 = .ok (.sctPredict 2) := by rfl
theorem decode_sct_train : decode .sct 64 0x000000000000000012 = .ok (.sctTrain 0 true) := by rfl
theorem decode_local_reset : decode .loc 64 0x00000000000000FF14 = .ok .localReset := by rfl
theorem decode_local_predict : decode .loc 64 0x000000000000000105 = .ok (.localPredict 1) := by rfl
theorem decode_local_train : decode .loc 64 0x000000000000000106 = .ok (.localTrain 1 false) := by rfl
theorem decode_gshare_reset : decode .gshare 64 0b00001000 = .ok .gshareReset := by rfl
theorem decode_gshare_predict : decode .gshare 64 0x000000000000001009 = .ok (.gsharePredict 16) := by rfl
theorem decode_gshare_train :
    decode .gshare 64 0xFFFFFFFFFFFFFFFF1A = .ok (.gshareTrain 0xFFFFFFFFFFFFFFFF true) := by rfl
theorem decode_tour_reset : decode .tour 64 0b00011100 = .ok .tourReset := by rfl
theorem decode_tour_predict : decode .tour 64 0x00000000000000010D = .ok (.tourPredict 1) := by rfl
theorem decode_tour_train : decode .tour 64 0x00000000000000AB0E = .ok (.tourTrain 0xAB false) := by rfl

theorem decode_DV8 : decode .loc 64 0x07 = .error (.illegal .reservedOp) := by rfl
theorem decode_DV10 : decode .loc 64 0xE3 = .error (.illegal .reservedBits) := by rfl
theorem decode_DV11 : decode .loc 64 0x2B = .error (.illegal .reservedBits) := by rfl
theorem decode_DV12 : decode .loc 64 0x09 = .error (.illegal .unitMismatch) := by rfl
theorem decode_DV14 : decode .loc 64 0x0B = .error (.illegal .reservedOp) := by rfl
theorem decode_too_wide : decode .loc 1 0x205 = .error .wordTooWide := by rfl

theorem table_word_tour_train : decodeTableWord 8 0x1E = some (.tourTrain 0 true) := by rfl
theorem table_word_reserved : decodeTableWord 8 0x0F = none := by rfl

/-! ### SCT (section 2.2) -/

theorem test_SC2 : respAfter (exec (.sctPredict 1) (sctOf [0, 1, 2, 3])) = some ⟨false, some 1⟩ := by decide
theorem test_SC1 : respAfter (exec (.sctPredict 3) (sctOf [2, 2, 2, 2])) = some ⟨true, some 2⟩ := by decide
theorem test_SC3 : unitAfter (exec (.sctTrain 1 true) (sctOf [0, 1, 2, 3])) = some (.sct ⟨[0, 2, 2, 3]⟩) := by
  decide
theorem test_SC4 : unitAfter (exec (.sctTrain 0 false) (sctOf [0, 1, 2, 3])) = some (.sct ⟨[0, 1, 2, 3]⟩) := by
  decide
theorem test_SC6 : unitAfter (exec .sctReset (sctOf [0, 1, 2, 3])) = some (.sct ⟨[2, 2, 2, 2]⟩) := by decide
theorem test_SC7 : faultOf (exec (.sctPredict 4) (sctOf [2, 2, 2, 2])) =
    some (.commandError (.indexOutOfRange 4)) := by decide
theorem test_SC8 : faultOf (exec (.sctTrain 0xFFFFFFFFFFFFFFFF true) (sctOf [2, 2, 2, 2])) =
    some (.commandError (.indexOutOfRange (2 ^ 64 - 1))) := by decide

/-! ### LOCAL (section 2.3) -/

theorem test_LV7_predict : respAfter (exec (.localPredict 5) (locOf 5 1 [3, 2, 2, 2, 2, 2, 2, 2])) =
    some ⟨true, none⟩ := by decide
/-- P1, its last line: `LHR[3] = 0`, `PHT_L[0] = 1`. -/
theorem test_P1_predict_3 : respAfter (exec (.localPredict 3) (locOf 1 6 [1, 3, 2, 1, 2, 2, 2, 2])) =
    some ⟨false, none⟩ := by decide
theorem test_LV8 : unitAfter (exec (.localTrain 0 false) (locOf 0 7 [2, 2, 2, 2, 2, 2, 2, 3])) =
    some (.loc ⟨lhrOf 0 6, [2, 2, 2, 2, 2, 2, 2, 2]⟩) := by decide
/-- LV1, its second TRAIN: address 129 is bucket 1. -/
theorem test_LV1_train_129 : unitAfter (exec (.localTrain 129 true) (locOf 1 1 [3, 2, 2, 2, 2, 2, 2, 2])) =
    some (.loc ⟨lhrOf 1 3, [3, 3, 2, 2, 2, 2, 2, 2]⟩) := by decide
theorem test_RV1 : unitAfter (exec .localReset (locOf 1 6 [1, 2, 2, 2, 2, 2, 2, 2])) =
    some (.loc ⟨List.replicate 128 0, [2, 2, 2, 2, 2, 2, 2, 2]⟩) := by decide

/-! ### GSHARE (section 2.4) -/

/-- P2, `gshare.predict 7` at `GHR = 5`. -/
theorem test_P2_predict_7 : respAfter (exec (.gsharePredict 7) (gshareOf 5 [2, 2, 1, 2, 2, 3, 2, 2])) =
    some ⟨false, none⟩ := by decide
/-- GV3's index 5, with `PHT_G[5]` set to 1. -/
theorem test_GV3 : respAfter (exec (.gsharePredict 0xFFFFFFFFFFFFFFFF) (gshareOf 2 [2, 2, 2, 2, 2, 1, 2, 2])) =
    some ⟨false, none⟩ := by decide
theorem test_GV6 : unitAfter (exec (.gshareTrain 0 true) (gshareOf 7 [2, 2, 2, 2, 2, 2, 2, 2])) =
    some (.gshare ⟨7, [2, 2, 2, 2, 2, 2, 2, 3]⟩) := by decide
/-- P2, `gshare.br 3, NT` at `GHR = 1`. -/
theorem test_P2_train_3 : unitAfter (exec (.gshareTrain 3 false) (gshareOf 1 [2, 2, 2, 2, 2, 3, 2, 2])) =
    some (.gshare ⟨2, [2, 2, 1, 2, 2, 3, 2, 2]⟩) := by decide
theorem test_gshare_reset : unitAfter (exec .gshareReset (gshareOf 3 [0, 1, 2, 3])) =
    some (.gshare ⟨0, [2, 2, 2, 2]⟩) := by decide

/-! ### TOURNAMENT (section 2.5) -/

theorem test_TS2 : respAfter (exec (.tourPredict 1) (tourS 1 1 2)) = some ⟨false, none⟩ := by decide
theorem test_TS3 : respAfter (exec (.tourPredict 1) (tourS 2 1 2)) = some ⟨true, none⟩ := by decide
theorem test_TV5 : unitAfter (exec (.tourTrain 1 false) (tourS 3 1 2)) = some (.tour (tourOf 2 0 1)) := by decide
theorem test_TV9 : unitAfter (exec (.tourTrain 1 true) (tourS 2 2 1)) =
    some (.tour ⟨⟨lhrOf 1 1, [3, 2, 2, 2]⟩, ⟨1, [2, 2, 2, 2]⟩, [2, 1, 2, 2]⟩) := by decide
theorem test_tour_reset : unitAfter (exec .tourReset (tourS 0 1 3)) = some (.tour (tourOf 2 2 2)) := by decide

/-! ### Steps, ports and faults (sections 2.6 and 2.8) -/

def locRun (record : Option CommandError) (inputs : List HostCycle) : State :=
  { locOf 1 6 [1, 2, 2, 2, 2, 2, 2, 2] with faultRecord := record, inputs := inputs }

theorem test_step_idle : unitAfter (step (locRun none [])) = some (locRun none []).unit := by decide
theorem test_RV2 : unitAfter (step (locRun none [⟨true, true, 0x116⟩])) =
    some (.loc ⟨List.replicate 128 0, [2, 2, 2, 2, 2, 2, 2, 2]⟩) := by decide
theorem test_RV3 : respAfter (step (locRun (some (.illegalCommand .reservedOp 7)) [presentWord 0x105])) = none := by
  decide
theorem test_RV4 : recordAfter (step (locRun (some (.illegalCommand .reservedOp 7)) [rstCycle])) = some none := by
  decide
theorem test_RV6 : respAfter (step { gshareOf 0 [2, 2, 2, 2, 2, 2, 2, 2] with inputs := [presentWord 0x509] }) =
    some ⟨true, none⟩ := by decide
/-- P5: the raw word `0x0000000000000007_09` at a LOCAL unit. -/
theorem test_P5_fault : faultOf (step (locRun none [presentWord 0x709])) =
    some (.commandError (.illegalCommand .unitMismatch 0x709)) := by decide
theorem test_P5_latched : recordAfter (hwCycle (locRun none [presentWord 0x709])) =
    some (some (.illegalCommand .unitMismatch 0x709)) := by decide
theorem test_word_too_wide : refusalOf (step (locRun none [presentWord (2 ^ 72)])) =
    some (.wordTooWide (2 ^ 72)) := by decide
theorem test_exec_other_unit : faultOf (exec (.gsharePredict 7) (locRun none [])) =
    some (.commandError (.illegalCommand .unitMismatch 0x709)) := by decide
theorem test_fetch_word : unitAfter (step ((sctOf [2, 2, 2, 2]).withFetchWord 8 0x02)) =
    some (.sct ⟨[1, 2, 2, 2]⟩) := by decide
theorem test_fetch_word_other_unit : unitAfter (step ((sctOf [2, 2, 2, 2]).withFetchWord 8 0x1A)) =
    some (.gshare ⟨1, [3, 2, 2, 2]⟩) := by decide

/-! ### Other numbers than R5's (I10): `N = 4`, three histories, CTR_MAX = 1, CTR_INIT = 1, HIST_INIT = 2 -/

theorem test_numbers_reset : unitAfter (exec .localReset
    ⟨⟨4, 64, .unchanged, 3, 1, 1, 2⟩, .loc ⟨[], []⟩, none, [], none⟩) = some (.loc ⟨[2, 2, 2], [1, 1, 1, 1]⟩) := by decide
/-- Address 5 is bucket 2; the counter stays at CTR_MAX; the history 2 becomes 5 mod 4. -/
theorem test_numbers_train : unitAfter (exec (.localTrain 5 true)
    ⟨⟨4, 64, .unchanged, 3, 1, 1, 2⟩, .loc ⟨[2, 2, 2], [1, 1, 1, 0]⟩, none, [], none⟩) =
    some (.loc ⟨[2, 2, 1], [1, 1, 1, 0]⟩) := by decide

/-! ### Elaboration (section 2.7) -/

theorem test_X1 : elaborate (.known .sct) (cfgOf 0) = .error [.tableSizeZero] := by rfl
theorem test_X3 : elaborate (.known .gshare) (cfgOf 6) = .error [.tableSizeNotPowerOfTwo 6] := by rfl
theorem test_X7 : elaborate (.known .loc) { pcWidth := 0 } = .error [.pcWidthZero] := by rfl
theorem test_X2 : (elaborate (.known .loc) (cfgOf 6)).toOption.isSome = true := by decide
theorem test_X6 : (elaborate (.known .gshare) (cfgOf 1)).toOption.isSome = true := by decide

/-! ### The assembler (section 3) -/

theorem test_P1_line : assembleText 64 "local.br 129, T".toList = .ok [0x8105, 0x8116] := by rfl
theorem test_asm_case : assembleText 64 "  TOUR.Train 0xaB, nT ; c".toList = .ok [0xAB0E] := by rfl

/-! ### Witnesses: what meets each obligation's hypotheses -/

def sctW : State := { sctOf [0, 1, 2, 3] with inputs := [presentWord 0x0312, rstCycle] }
def locW : State := { locOf 1 3 [1, 2, 2, 3] with inputs := [presentWord 0x8116] }
def gshareW : State := { gshareOf 3 [0, 1, 2, 3] with inputs := [presentWord 0x051A] }
def tourW : State := { tourS 3 1 2 with inputs := [presentWord 0x010D, idleCycle] }

theorem lhrOf_lt {b h n : Nat} (hn : 0 < n) (hh : h < n) : ∀ x ∈ lhrOf b h, x < n := by
  intro x hx
  rcases List.mem_or_eq_of_mem_set hx with hx | rfl
  · rw [(List.mem_replicate.mp hx).2]; exact hn
  · exact hh

theorem sctW_inv : sctW.Inv := ⟨by decide, by decide, ⟨by rfl, by decide⟩, trivial, by decide, trivial⟩
theorem locW_inv : locW.Inv :=
  ⟨by decide, by decide, ⟨rfl, lhrOf_lt (by decide) (by decide), rfl, by decide⟩, trivial, by decide, trivial⟩
theorem gshareW_inv : gshareW.Inv :=
  ⟨by decide, by decide, show gshareWf (cfgOf 4) ⟨3, [0, 1, 2, 3]⟩ by decide, trivial, by decide, trivial⟩
theorem tourW_inv : tourW.Inv :=
  ⟨by decide, by decide, ⟨⟨rfl, lhrOf_lt (b := 0) (h := 0) (by decide) (by decide), rfl, by decide⟩,
    show gshareWf (cfgOf 4) (tourOf 3 1 2).subG by decide, rfl, by decide⟩, trivial, by decide, trivial⟩

/-- A faulted LOCAL instance with legal values: the record is a reserved operation's word. -/
def locFaulted : State := { locW with faultRecord := some (.illegalCommand .reservedOp 0x07) }
theorem locFaulted_inv : locFaulted.Inv :=
  ⟨locW_inv.cfgLegal, locW_inv.numbersOk, locW_inv.unitOk, by rfl, locW_inv.inputsOk, trivial⟩

theorem witness_EncodedCommandDecodesBack : Instr.wf 1 (.tourTrain 1 true) = true := by decide

theorem witness_DecodedWordIsItsCommandsWord :
    decode .loc 1 0x1FF = .error (.illegal .reservedBits) ∧ decode .loc 1 0x116 = .ok (.localTrain 1 true) ∧
      decode .loc 1 0x115 = .ok (.localPredict 1) ∧ decode .loc 1 0x114 = .ok .localReset :=
  ⟨rfl, rfl, rfl, rfl⟩

/-- One word for each clause, of the top address of PC_WIDTH = 1. -/
theorem witness_DecoderFollowsTheFieldTable :
    (0x1E3 < 2 ^ 9 ∧ (0x1E3).testBit 5 = true) ∧ (0x10B < 2 ^ 9 ∧ (0x10B).testBit 0 && (0x10B).testBit 1) ∧
      (0x109 < 2 ^ 9 ∧ 2 * b2i ((0x109).testBit 3) + b2i ((0x109).testBit 2) ≠ Kind.loc.code) ∧
      (0x116 < 2 ^ 9 ∧ 2 * b2i ((0x116).testBit 3) + b2i ((0x116).testBit 2) = Kind.loc.code) := by decide

theorem witness_MetaGapActsInOneCase :
    (1#2).getLsbD 1 = false ∧ ¬ ((2#2).getLsbD 1 = false) := by decide

theorem witness_HistoryStaysBelowTableSize : 1 ≤ 1 ∧ 0 < 1 ∧ 1 ≤ 3 ∧ 2 < 3 := by decide

theorem witness_GshareIndexBound : (⟨7, []⟩ : GshareState).ghr < 2 ^ 3 := by decide

theorem witness_SctResetResult : 1 < 2 ^ 1 ∧ 0x10 ∈ [0x00, 0x10] ∧ sctW.unit = .sct ⟨[0, 1, 2, 3]⟩ :=
  ⟨by decide, by decide, rfl⟩

/-- The last index of the table and the first beyond it. -/
theorem witness_SctPredictResult : sctW.Inv ∧ sctW.unit = .sct ⟨[0, 1, 2, 3]⟩ ∧ 3 < sctW.cfg.n ∧ sctW.cfg.n ≤ 4 :=
  ⟨sctW_inv, rfl, by decide, by decide⟩

theorem witness_SctTrainResult : sctW.Inv ∧ sctW.unit = .sct ⟨[0, 1, 2, 3]⟩ ∧ 3 < sctW.cfg.n ∧ sctW.cfg.n ≤ 4 :=
  witness_SctPredictResult

theorem witness_LocalResetResult : locW.unit = .loc ⟨lhrOf 1 3, [1, 2, 2, 3]⟩ := rfl
theorem witness_LocalPredictResult : locW.Inv ∧ locW.unit = .loc ⟨lhrOf 1 3, [1, 2, 2, 3]⟩ := ⟨locW_inv, rfl⟩
theorem witness_LocalTrainResult : locW.Inv ∧ locW.unit = .loc ⟨lhrOf 1 3, [1, 2, 2, 3]⟩ := ⟨locW_inv, rfl⟩
theorem witness_GshareResetResult : gshareW.unit = .gshare ⟨3, [0, 1, 2, 3]⟩ := rfl
theorem witness_GsharePredictResult : gshareW.Inv ∧ gshareW.unit = .gshare ⟨3, [0, 1, 2, 3]⟩ := ⟨gshareW_inv, rfl⟩
theorem witness_GshareTrainResult : gshareW.Inv ∧ gshareW.unit = .gshare ⟨3, [0, 1, 2, 3]⟩ := ⟨gshareW_inv, rfl⟩
theorem witness_TourResetResult : tourW.unit = .tour (tourOf 3 1 2) := rfl
theorem witness_TourPredictResult : tourW.Inv ∧ tourW.unit = .tour (tourOf 3 1 2) := ⟨tourW_inv, rfl⟩
theorem witness_TourTrainResult : tourW.Inv ∧ tourW.unit = .tour (tourOf 3 1 2) := ⟨tourW_inv, rfl⟩

theorem witness_PredictAndIdleChangeNoState :
    (∃ s', exec (.sctPredict 3) sctW = .next s') ∧
      ({ tourW with inputs := [idleCycle] } : State).inputs = idleCycle :: [] ∧ idleCycle.rst = false ∧
      idleCycle.cmdValid = false := ⟨⟨_, rfl⟩, rfl, rfl, rfl⟩

theorem witness_SctTrainFrame :
    sctW.unit = .sct ⟨[0, 1, 2, 3]⟩ ∧ ∃ s', exec (.sctTrain 3 false) sctW = .next s' := ⟨rfl, _, rfl⟩
theorem witness_LocalTrainFrame : locW.unit = .loc ⟨lhrOf 1 3, [1, 2, 2, 3]⟩ ∧
    localIndex 128 ⟨lhrOf 1 3, [1, 2, 2, 3]⟩ 129 = some 3 ∧ ∃ s', exec (.localTrain 129 true) locW = .next s' :=
  ⟨rfl, rfl, _, rfl⟩
theorem witness_GshareTrainFrame : gshareW.unit = .gshare ⟨3, [0, 1, 2, 3]⟩ ∧
    ∃ s', exec (.gshareTrain 5 true) gshareW = .next s' := ⟨rfl, _, rfl⟩
theorem witness_TourTrainFrame : tourW.unit = .tour (tourOf 3 1 2) ∧ localIndex 128 (tourOf 3 1 2).subL 1 = some 0 ∧
    ∃ s', exec (.tourTrain 1 false) tourW = .next s' := ⟨rfl, rfl, _, rfl⟩
theorem witness_ResetCommandFrame : Instr.opcode .tourReset = .reset ∧ ∃ s', exec .tourReset tourW = .next s' :=
  ⟨rfl, _, rfl⟩

/-- Other numbers than R5's: three histories, counters up to 1 that start at 1, histories that start at 2. -/
def otherCfg : Config := ⟨4, 1, .inc, 3, 1, 1, 2⟩

theorem witness_ResetHasInvariant : otherCfg.legal .tour = true ∧ otherCfg.numbersOk = true ∧ 1 ≤ 1 := by decide

theorem witness_ElaborationAcceptsExactlyLegalParameters :
    elaborate (.known .gshare) { n := 1, pcWidth := 1 } = .ok (State.resetFor .gshare { n := 1, pcWidth := 1 }) := rfl

theorem witness_StepKeepsInvariant : locW.Inv ∧ ∃ s', step locW = .next s' := ⟨locW_inv, _, rfl⟩

/-- A completed command, and a refused one whose error is latched. -/
theorem witness_HardwareCycleKeepsInvariant :
    (locW.Inv ∧ ∃ s', hwCycle locW = .next s') ∧
      ({ locW with inputs := [presentWord 0x07] } : State).Inv ∧
        ∃ s', hwCycle { locW with inputs := [presentWord 0x07] } = .next s' ∧ s'.faultPort = true :=
  ⟨⟨locW_inv, _, rfl⟩, ⟨locW_inv.cfgLegal, locW_inv.numbersOk, locW_inv.unitOk, trivial, by decide, trivial⟩, _, rfl, rfl⟩

theorem witness_NoIndexLeavesItsTable : tourW.Inv := tourW_inv
theorem witness_ParametersNeverChange : ∃ s', step tourW = .next s' := ⟨_, rfl⟩
theorem witness_OnlySctRaisesIndexOutOfRange :
    step { sctW with inputs := [presentWord 0x0412] } = .fault (.commandError (.indexOutOfRange 4)) := rfl

theorem witness_StepRunsDecodedCommand : tourW.inputs = ⟨false, true, 0x010D⟩ :: [idleCycle] ∧
    tourW.faultRecord = none ∧ decode tourW.kind tourW.cfg.pcWidth 0x010D = .ok (.tourPredict 1) := ⟨rfl, rfl, rfl⟩

/-- A word of the instance's own unit and one of another unit. -/
theorem witness_FetchWordRunsNext :
    decode .sct sctW.cfg.pcWidth (0x12 % 2 ^ 8 % 2 ^ (8 + sctW.cfg.pcWidth)) = .ok (.sctTrain 0 true) ∧
      decode .tour sctW.cfg.pcWidth (0x0D % 2 ^ 8 % 2 ^ (8 + sctW.cfg.pcWidth)) = .ok (.tourPredict 0) := ⟨rfl, rfl⟩

/-- One word for each reason, each with the later checks failing too. -/
theorem witness_IllegalWordRaisesIllegalCommand :
    (0x2B / 32 % 8 ≠ 0) ∧ (0x0B / 32 % 8 = 0 ∧ 0x0B % 4 = 3) ∧
      (0x09 / 32 % 8 = 0 ∧ 0x09 % 4 ≠ 3 ∧ 0x09 / 4 % 4 ≠ locW.kind.code) ∧ 0x2B < 2 ^ (8 + locW.cfg.pcWidth) ∧
      locW.faultRecord = none := by decide

theorem witness_CommandOfAnotherUnitIsRefused :
    Instr.unit (.gsharePredict 7) ≠ locW.kind ∧ Instr.wf locW.cfg.pcWidth (.gsharePredict 7) = true := by decide

theorem witness_RefusedCommandLatchesItsError :
    step { locW with inputs := [presentWord 0x709] } =
      .fault (.commandError (.illegalCommand .unitMismatch 0x709)) := rfl

theorem witness_FaultedBlockIgnoresCommandsUntilRst :
    locFaulted.faultRecord = some (.illegalCommand .reservedOp 0x07) ∧
      (∀ c ∈ locFaulted.inputs.take 3, c.rst = false) ∧ 0 < 3 := ⟨rfl, by decide, by decide⟩

theorem witness_RstAndResetGiveResetState :
    (({ locFaulted with inputs := [⟨true, true, 0x116⟩] } : State).inputs = ⟨true, true, 0x116⟩ :: []) ∧
      Instr.opcode .localReset = .reset ∧ Instr.unit .localReset = locFaulted.kind := ⟨rfl, rfl, rfl⟩

/-- A PREDICT, and a cycle that is none. -/
theorem witness_ResponseValidExactlyForPredict :
    (tourW.inputs = presentWord 0x010D :: [idleCycle] ∧ ∃ s', step tourW = .next s' ∧ s'.respValidPort = true) ∧
      (locW.inputs = presentWord 0x8116 :: [] ∧ ∃ s', step locW = .next s' ∧ s'.respValidPort = false) :=
  ⟨⟨rfl, _, rfl, rfl⟩, rfl, _, rfl, rfl⟩

/-- The last index of an SCT table, and the top address of another unit. -/
theorem witness_LegalCommandsComplete :
    (sctW.Inv ∧ sctW.Performs (.sctTrain 3 true)) ∧ (tourW.Inv ∧ tourW.Performs (.tourTrain (2 ^ 64 - 1) true)) :=
  ⟨⟨sctW_inv, rfl, by decide, fun _ _ => by decide⟩, tourW_inv, rfl, by decide, fun h => by cases h⟩

theorem witness_LegalStreamsRunSafely : sctW.Inv ∧ ∀ c ∈ sctW.inputs, c.rst = true ∨ c.cmdValid = false ∨
    ∃ i, decode sctW.kind sctW.cfg.pcWidth c.cmd = .ok i ∧ sctW.Performs i := by
  refine ⟨sctW_inv, fun c hc => ?_⟩
  rcases List.mem_cons.mp hc with rfl | hc
  · exact .inr (.inr ⟨.sctTrain 3 true, rfl, rfl, by decide, fun _ _ => by decide⟩)
  · rcases List.mem_cons.mp hc with rfl | hc
    · exact .inl rfl
    · cases hc

theorem witness_IdempotencyOfCommands :
    (Instr.opcode (.tourPredict 1) ≠ .train ∧ ∃ s', exec (.tourPredict 1) tourW = .next s') ∧
      (Instr.opcode .tourReset ≠ .train ∧ ∃ s', exec .tourReset tourW = .next s') ∧
      (sctW.unit = .sct ⟨[0, 1, 2, 3]⟩ ∧ 1 < sctW.cfg.n ∧ ([0, 1, 2, 3] : List Counter)[1]? = some 1#2) :=
  ⟨⟨by decide, _, rfl⟩, ⟨by decide, _, rfl⟩, rfl, by decide, rfl⟩

theorem witness_PredictionsLeaveNoTrace :
    (locW.cfg = locFaulted.cfg ∧ locW.unit = locFaulted.unit) ∧
      ∃ t, runCommands [.localPredict 1, .localTrain 1 true] locW = .next t := ⟨⟨rfl, rfl⟩, _, rfl⟩

theorem witness_TrainUpdatesTheCounterPredictRead :
    (locW.Inv ∧ locW.unit = .loc ⟨lhrOf 1 3, [1, 2, 2, 3]⟩ ∧
      ∃ s1 s2, exec (.localPredict 1) locW = .next s1 ∧ exec (.localTrain 1 false) s1 = .next s2) ∧
    (gshareW.Inv ∧ gshareW.unit = .gshare ⟨3, [0, 1, 2, 3]⟩ ∧
      ∃ s1 s2, exec (.gsharePredict 5) gshareW = .next s1 ∧ exec (.gshareTrain 5 true) s1 = .next s2) :=
  ⟨⟨locW_inv, rfl, _, _, rfl, rfl⟩, gshareW_inv, rfl, _, _, rfl, rfl⟩

/-- Two addresses of one bucket, and two buckets of one history. -/
theorem witness_LocalAliasing : locW.unit = .loc ⟨lhrOf 1 3, [1, 2, 2, 3]⟩ ∧ 1 % 128 = 129 % 128 ∧
    (lhrOf 1 3)[2 % 128]? = (lhrOf 1 3)[127 % 128]? ∧ (∃ s1, exec (.localTrain 2 true) locW = .next s1) ∧
    ∃ s2, exec (.localTrain 127 true) locW = .next s2 := ⟨rfl, rfl, rfl, ⟨_, rfl⟩, _, rfl⟩

/-- R126's example: `N = 8`, address 3 at `GHR = 0` and address 2 at `GHR = 1`. -/
theorem witness_GshareAliasing : (gshareW.unit = .gshare ⟨3, [0, 1, 2, 3]⟩ ∧ 1 % gshareW.cfg.n = 5 % gshareW.cfg.n) ∧
    ((3 % 8) ^^^ 0 = (2 % 8) ^^^ 1 ∧
      (cfgOf 8).n = 8 ∧ (∃ v, gshareTrain (cfgOf 8) ⟨0, tableReset (cfgOf 8)⟩ 3 true = some v) ∧
      ∃ v, gshareTrain (cfgOf 8) ⟨1, tableReset (cfgOf 8)⟩ 2 true = some v) :=
  ⟨⟨rfl, rfl⟩, rfl, rfl, ⟨_, rfl⟩, _, rfl⟩

/-- Every kind, and a state with N = 1024. -/
theorem witness_StorageTotals : sctW.Inv ∧ locW.Inv ∧ gshareW.Inv ∧ tourW.Inv ∧
    (State.resetFor .sct Config.standard).Inv ∧ Config.standard.n = 1024 ∧ Config.standard.lhrEntries = 128 :=
  ⟨sctW_inv, locW_inv, gshareW_inv, tourW_inv,
    ⟨by decide, by decide, unitReset_wf (by decide) .sct, trivial, by decide, trivial⟩, rfl, rfl⟩

theorem witness_SubPredictorsTrackStandaloneUnits :
    tourW.Inv ∧ tourW.unit = .tour (tourOf 3 1 2) ∧
      (inst 4 (.loc (tourOf 3 1 2).subL)).cfg = tourW.cfg ∧ (inst 4 (.gshare (tourOf 3 1 2).subG)).cfg = tourW.cfg :=
  ⟨tourW_inv, rfl, rfl, rfl⟩

theorem witness_OneAddressNeverDisagrees : Config.legal .tour otherCfg = true ∧ otherCfg.numbersOk = true := by
  decide

/-- A state with one address's history 1 and its counters at 3, and a reset one's configuration. -/
def agreeS : State := inst 4 (.tour ⟨⟨lhrOf 1 1, [3, 2, 2, 2]⟩, ⟨1, [2, 3, 2, 2]⟩, [2, 3, 2, 2]⟩)

theorem witness_OneAddressTrainKeepsAgreement :
    (agreeS.Inv ∧ agreesAt agreeS.cfg 1 ⟨⟨lhrOf 1 1, [3, 2, 2, 2]⟩, ⟨1, [2, 3, 2, 2]⟩, [2, 3, 2, 2]⟩) ∧
      otherCfg.legal .tour = true ∧ otherCfg.numbersOk = true :=
  ⟨⟨⟨by decide, by decide, ⟨⟨rfl, lhrOf_lt (b := 1) (h := 1) (by decide) (by decide), rfl, by decide⟩,
    show gshareWf (cfgOf 4) ⟨1, [2, 3, 2, 2]⟩ by decide, rfl, by decide⟩, trivial, by decide, trivial⟩,
    rfl, by decide⟩, by decide⟩

theorem witness_AssembledWordsDecodeToTheLine :
    assembleLine 1 (.br .gshare 1 true) = .ok [0x109, 0x11A] := rfl

theorem witness_BranchPseudoInstructionExpands :
    1 < 2 ^ 1 ∧ ∃ s1, exec (instrOf .loc .predict 1 false) locW = .next s1 := ⟨by decide, _, rfl⟩

/-- P1's form: a RESET, then branches. -/
theorem witness_BranchLinesKeepTheHostsOrder :
    ∀ l ∈ [AsmLine.command .localReset, .br .loc 1 true],
      (∃ k, l = .command (instrOf k .reset 0 false)) ∨ ∃ k a t, l = .br k a t := by
  intro l hl
  rcases List.mem_cons.mp hl with rfl | hl
  · exact .inl ⟨.loc, rfl⟩
  · rcases List.mem_cons.mp hl with rfl | hl
    · exact .inr ⟨.loc, 1, true, rfl⟩
    · cases hl

end Sys2Proof.Tests
end

section
/-! SUPPORT. Elaboration and the parameters (00_scope.md): which configurations elaborate (R6, R171, R172), and that
no step changes the parameters or the kind (R5). -/

namespace Sys2Proof.Machine

/-! ### Elaboration -/

theorem isPowerOfTwo_iff {n : Nat} : isPowerOfTwo n = true ↔ ∃ e, n = 2 ^ e := by
  constructor
  · exact fun h => ⟨_, two_pow_of_isPowerOfTwo h⟩
  · rintro ⟨e, rfl⟩
    exact isPowerOfTwo_two_pow e

theorem Kind.needsPowerOfTwo_iff {k : Kind} : k.needsPowerOfTwo = true ↔ k = .gshare ∨ k = .tour := by
  cases k <;> decide

theorem legal_iff {k : Kind} {c : Config} :
    c.legal k = true ↔
      1 ≤ c.n ∧ (k = .gshare ∨ k = .tour → ∃ e, c.n = 2 ^ e) ∧ 1 ≤ c.pcWidth := by
  rw [← Kind.needsPowerOfTwo_iff, ← isPowerOfTwo_iff]
  cases hk : k.needsPowerOfTwo <;> simp [Config.legal, hk, and_assoc]

/-- R171 and R172 name an offence exactly where R6's legal values are left. -/
theorem configOffences_eq_nil_iff {k : Kind} {c : Config} :
    configOffences k c = [] ↔ c.legal k = true := by
  rw [configOffences, Config.legal, List.append_eq_nil_iff]
  by_cases hn : c.n = 0
  · simp [hn]
  · simp [hn, Nat.one_le_iff_ne_zero, imp_iff_not_or]

theorem elaborate_known_eq_ok_iff {k : Kind} {c : Config} {s : State} :
    elaborate (.known k) c = .ok s ↔ c.legal k = true ∧ s = State.resetFor k c := by
  rw [← configOffences_eq_nil_iff]
  cases ho : configOffences k c with
  | nil => simp [elaborate, ho, eq_comm]
  | cons o os => simp [elaborate, ho]

theorem elaborate_other_ne_ok (name : String) (c : Config) (s : State) :
    elaborate (.other name) c ≠ .ok s := nofun

/-- Settles O32: an elaboration gives a state exactly where it finds no offence, which is where R6 holds. -/
theorem elaborationAcceptsExactlyLegalParameters :
    Obligations.ElaborationAcceptsExactlyLegalParameters := by
  refine ⟨elaborate_other_ne_ok, fun k c => ⟨?_, fun s h => (elaborate_known_eq_ok_iff.mp h).2⟩⟩
  simp only [elaborate_known_eq_ok_iff, exists_and_left, exists_eq, and_true]
  exact legal_iff

/-! ### The parameters while the block runs -/

theorem exec_keeps_parameters {i : Instr} {s s' : State} (h : exec i s = .next s') :
    s'.cfg = s.cfg ∧ s'.kind = s.kind := by
  obtain ⟨-, ⟨-, r, rfl⟩ | ⟨-, u, rfl, hk⟩⟩ := exec_next_cases h
  · exact ⟨State.respond_cfg .., State.respond_kind ..⟩
  · exact ⟨State.commit_cfg .., hk⟩

theorem step_keeps_parameters {s s' : State} (h : step s = .next s') :
    s'.cfg = s.cfg ∧ s'.kind = s.kind := by
  obtain ⟨rfl, -⟩ | ⟨c, rest, -, ⟨-, rfl⟩ | ⟨-, -, rfl⟩ | ⟨-, -, -, i, -, hi⟩⟩ := step_next_cases h
  · exact ⟨State.noResponse_cfg _, State.noResponse_kind _⟩
  · exact ⟨State.takeRst_cfg _, State.takeRst_kind _⟩
  · exact ⟨State.noResponse_cfg _, State.noResponse_kind _⟩
  · exact exec_keeps_parameters (s := { s with inputs := rest }) hi

/-- Settles O36, by the four things a step that goes on can do: idle, `rst`, an ignored cycle, a command. -/
theorem parametersNeverChange : Obligations.ParametersNeverChange :=
  fun _ _ => step_keeps_parameters

end Sys2Proof.Machine
end

section
/-! SUPPORT. The state of a unit (10_state.md): every step keeps its legal values (R21, R25, R28, R30), a PREDICT and
an idle cycle leave it alone (R35), what a history register holds (R26), and the storage totals (R36). -/

namespace Sys2Proof.Machine

/-! ### The legal values -/

section
variable {s s' : State} (hs : s.Inv)
include hs

theorem State.Inv.noResponse : s.noResponse.Inv :=
  ⟨hs.cfgLegal, hs.numbersOk, hs.unitOk, hs.recordOk, hs.inputsOk, trivial⟩

theorem State.Inv.respond {r : Response} (hr : respWf s.kind (some r)) : (s.respond r).Inv :=
  ⟨hs.cfgLegal, hs.numbersOk, hs.unitOk, hs.recordOk, hs.inputsOk, hr⟩

/-- A response without a counter is one of every kind but SCT (R67). -/
theorem State.Inv.respond_taken (hk : s.kind ≠ .sct) (taken : Bool) : (s.respond ⟨taken, none⟩).Inv :=
  hs.respond hk

theorem State.Inv.commit {u : UnitState} (hk : u.kind = s.kind) (hu : unitWf s.cfg u) : (s.commit u).Inv :=
  ⟨by rw [State.commit_kind, hk]; exact hs.cfgLegal, hs.numbersOk, hu,
    by rw [State.commit_kind, hk]; exact hs.recordOk, hs.inputsOk, trivial⟩

theorem State.Inv.takeRst : s.takeRst.Inv :=
  ⟨(State.takeRst_kind s).symm ▸ hs.cfgLegal, hs.numbersOk, unitReset_wf hs.numbersOk s.kind, trivial,
    hs.inputsOk, trivial⟩

theorem State.Inv.dropInput {c : HostCycle} {rest : List HostCycle} (hi : s.inputs = c :: rest) :
    State.Inv { s with inputs := rest } :=
  ⟨hs.cfgLegal, hs.numbersOk, hs.unitOk, hs.recordOk,
    fun x hx => hs.inputsOk x (hi ▸ List.mem_cons_of_mem c hx), hs.respOk⟩

/-- A PREDICT's response is one of its kind (R67). -/
theorem exec_predict_keeps_inv {i : Instr} (hi : i.opcode = .predict) (h : exec i s = .next s') : s'.Inv := by
  cases i with
  | sctPredict idx =>
    obtain ⟨u, hu, h⟩ := onSct_eq_next _ h
    split at h
    · cases h
    · obtain ⟨c, -, h⟩ := inTable_eq_next h
      cases h
      exact hs.respond ⟨State.kind_of hu, rfl⟩
  | localPredict pc =>
    obtain ⟨u, hu, h⟩ := onLocal_eq_next _ h
    obtain ⟨b, -, h⟩ := inTable_eq_next h
    cases h
    exact hs.respond_taken (by rw [State.kind_of hu]; nofun) b
  | gsharePredict pc =>
    obtain ⟨u, hu, h⟩ := onGshare_eq_next _ h
    obtain ⟨b, -, h⟩ := inTable_eq_next h
    cases h
    exact hs.respond_taken (by rw [State.kind_of hu]; nofun) b
  | tourPredict pc =>
    obtain ⟨u, hu, h⟩ := onTour_eq_next _ h
    obtain ⟨b, -, h⟩ := inTable_eq_next h
    cases h
    exact hs.respond_taken (by rw [State.kind_of hu]; nofun) b
  | _ => cases hi

/-- A TRAIN writes legal counters and histories (R21, R105). -/
theorem exec_train_keeps_inv {i : Instr} (hi : i.opcode = .train) (h : exec i s = .next s') : s'.Inv := by
  have hn : 1 ≤ s.cfg.n := one_le_of_legal hs.cfgLegal
  have hw := hs.unitOk
  cases i with
  | sctTrain idx t =>
    obtain ⟨u, hu, h⟩ := onSct_eq_next _ h
    rw [hu] at hw
    split at h
    · cases h
    · obtain ⟨c, hc, h⟩ := inTable_eq_next h
      cases h
      exact hs.commit (State.kind_of hu).symm
        (tableWf_tableWrite hw idx (ctrUpdate_le t (le_of_tableRead hw hc)))
  | localTrain pc t =>
    obtain ⟨u, hu, h⟩ := onLocal_eq_next _ h
    rw [hu] at hw
    obtain ⟨u', hu', h⟩ := inTable_eq_next h
    cases h
    exact hs.commit (State.kind_of hu).symm (localTrain_wf hn hw hu')
  | gshareTrain pc t =>
    obtain ⟨u, hu, h⟩ := onGshare_eq_next _ h
    rw [hu] at hw
    obtain ⟨u', hu', h⟩ := inTable_eq_next h
    cases h
    exact hs.commit (State.kind_of hu).symm (gshareTrain_wf hn hw hu')
  | tourTrain pc t =>
    obtain ⟨u, hu, h⟩ := onTour_eq_next _ h
    rw [hu] at hw
    obtain ⟨u', hu', h⟩ := inTable_eq_next h
    cases h
    exact hs.commit (State.kind_of hu).symm (tourTrain_wf hn hw hu')
  | _ => cases hi

end

/-- A RESET command of the instance's own unit commits the reset values of R191. -/
theorem exec_reset {s : State} {i : Instr} (hi : i.opcode = .reset) (hk : i.unit = s.kind) :
    exec i s = .next (s.commit (unitReset i.unit s.cfg)) := by
  cases hu : s.unit with
  | sct u =>
    rw [State.kind_of hu] at hk
    cases i <;> cases hi <;> cases hk
    exact exec_sctReset hu
  | loc u =>
    rw [State.kind_of hu] at hk
    cases i <;> cases hi <;> cases hk
    exact exec_localReset hu
  | gshare u =>
    rw [State.kind_of hu] at hk
    cases i <;> cases hi <;> cases hk
    exact exec_gshareReset hu
  | tour u =>
    rw [State.kind_of hu] at hk
    cases i <;> cases hi <;> cases hk
    exact exec_tourReset hu

/-- Every command that completes keeps the legal values. -/
theorem exec_keeps_inv {s s' : State} (hs : s.Inv) {i : Instr} (h : exec i s = .next s') : s'.Inv := by
  cases hi : i.opcode with
  | reset =>
    have hk : i.unit = s.kind := (exec_next_cases h).1
    rw [exec_reset hi hk] at h
    cases h
    exact hs.commit ((unitReset_kind ..).trans hk) (unitReset_wf hs.numbersOk _)
  | predict => exact exec_predict_keeps_inv hs hi h
  | train => exact exec_train_keeps_inv hs hi h

/-- Settles O33, by the four things a step that goes on can do: idle, `rst`, an ignored cycle, a command. -/
theorem stepKeepsInvariant : Obligations.StepKeepsInvariant := by
  intro s s' hs h
  obtain ⟨rfl, -⟩ | ⟨c, rest, hc, ⟨-, rfl⟩ | ⟨-, -, rfl⟩ | ⟨-, -, -, i, -, hi⟩⟩ := step_next_cases h
  · exact hs.noResponse
  · exact (hs.dropInput hc).takeRst
  · exact (hs.dropInput hc).noResponse
  · exact exec_keeps_inv (hs.dropInput hc) hi

/-! ### What a PREDICT leaves -/

theorem exec_predict_respond {i : Instr} {s s' : State} (hi : i.opcode = .predict) (h : exec i s = .next s') :
    ∃ r, s' = s.respond r := by
  obtain ⟨-, ⟨-, hr⟩ | ⟨hn, -⟩⟩ := exec_next_cases h
  · exact hr
  · exact absurd hi hn

/-- A RESET or TRAIN reads the parameters and the unit's state and nothing else (R33): where two states share these,
it commits the same unit state to both. -/
theorem exec_commit_of_same_unit {i : Instr} {s₁ s₂ t₁ : State} (hc : s₁.cfg = s₂.cfg) (hu : s₁.unit = s₂.unit)
    (hi : i.opcode ≠ .predict) (h : exec i s₁ = .next t₁) :
    ∃ u, t₁ = s₁.commit u ∧ exec i s₂ = .next (s₂.commit u) := by
  cases i with
  | sctTrain idx t =>
    obtain ⟨u, hs, h⟩ := onSct_eq_next _ h
    split at h
    · cases h
    · next hlt =>
      obtain ⟨c, hr, h⟩ := inTable_eq_next h
      cases h
      rw [hc] at hlt ⊢
      exact ⟨_, rfl, by rw [exec_sctTrain (hu ▸ hs), if_neg hlt, hr, inTable_some]⟩
  | localTrain pc t =>
    obtain ⟨u, hs, h⟩ := onLocal_eq_next _ h
    obtain ⟨u', hr, h⟩ := inTable_eq_next h
    cases h
    exact ⟨_, rfl, by rw [exec_localTrain (hu ▸ hs), ← hc, hr, inTable_some]⟩
  | gshareTrain pc t =>
    obtain ⟨u, hs, h⟩ := onGshare_eq_next _ h
    obtain ⟨u', hr, h⟩ := inTable_eq_next h
    cases h
    exact ⟨_, rfl, by rw [exec_gshareTrain (hu ▸ hs), ← hc, hr, inTable_some]⟩
  | tourTrain pc t =>
    obtain ⟨u, hs, h⟩ := onTour_eq_next _ h
    obtain ⟨u', hr, h⟩ := inTable_eq_next h
    cases h
    exact ⟨_, rfl, by rw [exec_tourTrain (hu ▸ hs), ← hc, hr, inTable_some]⟩
  | sctPredict idx => exact absurd rfl hi
  | localPredict pc => exact absurd rfl hi
  | gsharePredict pc => exact absurd rfl hi
  | tourPredict pc => exact absurd rfl hi
  | _ =>
    have hk : _ = s₁.kind := (exec_next_cases h).1
    rw [exec_reset rfl hk] at h
    cases h
    exact ⟨_, rfl, by rw [exec_reset rfl (hk.trans (by rw [State.kind, State.kind, hu])), hc]⟩

theorem runCommands_cons_eq_next {i : Instr} {is : List Instr} {s t : State}
    (h : runCommands (i :: is) s = .next t) : ∃ s', exec i s = .next s' ∧ runCommands is s' = .next t := by
  unfold runCommands at h
  split at h
  · next s' hs => exact ⟨s', hs, h⟩
  · cases h
  · cases h

theorem runCommands_cons_of_next {i : Instr} {is : List Instr} {s s' : State} (h : exec i s = .next s') :
    runCommands (i :: is) s = runCommands is s' := by
  simp [runCommands, h]

/-- Settles O49, by induction on the commands: a PREDICT of the first run leaves it level with the second, and any
other command moves both to the same unit state. -/
theorem predictionsLeaveNoTrace : Obligations.PredictionsLeaveNoTrace := by
  intro is
  induction is with
  | nil =>
    rintro s₁ s₂ t₁ - hu h
    cases h
    exact ⟨s₂, rfl, hu.symm⟩
  | cons i is ih =>
    intro s₁ s₂ t₁ hc hu h
    obtain ⟨s₁', hi, h⟩ := runCommands_cons_eq_next h
    by_cases hp : i.opcode = .predict
    · obtain ⟨r, rfl⟩ := exec_predict_respond hp hi
      rw [List.filter_cons_of_neg (by simp [hp])]
      exact ih (s₁.respond r) s₂ t₁ hc hu h
    · obtain ⟨u, rfl, hi₂⟩ := exec_commit_of_same_unit hc hu hp hi
      rw [List.filter_cons_of_pos (by simp [hp]), runCommands_cons_of_next hi₂]
      exact ih (s₁.commit u) (s₂.commit u) t₁ hc rfl h

/-- A cycle with no `rst` and no command answers nothing and changes nothing (R35). -/
theorem runCycle_of_no_command {c : HostCycle} (hr : c.rst = false) (hv : c.cmdValid = false) (s : State) :
    runCycle c s = .next s.noResponse := by
  simp [runCycle, hr, hv]

theorem step_of_inputs {s : State} {c : HostCycle} {rest : List HostCycle} (hi : s.inputs = c :: rest) :
    step s = runCycle c { s with inputs := rest } := by
  simp [step, nextCycle, hi]

/-- Settles O24: a PREDICT only responds, and a cycle without a command only takes its input. -/
theorem predictAndIdleChangeNoState : Obligations.PredictAndIdleChangeNoState := by
  constructor
  · intro i s s' hi h
    obtain ⟨r, rfl⟩ := exec_predict_respond hi h
    exact ⟨State.respond_cfg .., State.respond_unit .., State.respond_faultRecord .., State.respond_inputs ..⟩
  · intro s c rest hi hr hv
    rw [step_of_inputs hi, runCycle_of_no_command hr hv, State.noResponse]

/-! ### History registers -/

/-- R101 bit by bit where `N = 2^K`: the outcome enters at bit 0, bit `j` moves to `j + 1`, and `K` bits stay. -/
theorem histNext_testBit_zero (k h : Nat) (t : Bool) :
    (histNext (2 ^ k) h t).testBit 0 = (decide (0 < k) && t) := by
  rw [histNext, Nat.testBit_mod_two_pow]
  cases t <;> simp [Nat.testBit_zero]

theorem histNext_testBit_succ (k h j : Nat) (t : Bool) :
    (histNext (2 ^ k) h t).testBit (j + 1) = (decide (j + 1 < k) && h.testBit j) := by
  rw [histNext, Nat.testBit_mod_two_pow, Nat.testBit_add_one]
  have hdiv : (2 * h + b2i t) / 2 = h := by have := b2i_lt t; omega
  rw [hdiv]

/-- Settles O9, by induction on the updates from the newest back. -/
theorem historyHoldsRecentOutcomes : Obligations.HistoryHoldsRecentOutcomes := by
  intro k ts
  induction ts using List.reverseRecOn with
  | nil => intro j; simp
  | append_singleton ts t ih =>
    intro j
    rw [List.foldl_append, List.foldl_cons, List.foldl_nil, List.reverse_append]
    cases j with
    | zero => rw [histNext_testBit_zero]; simp
    | succ j =>
      have hlt : j + 1 < k → j < k := by omega
      rw [histNext_testBit_succ, ih j]
      by_cases hj : j + 1 < k
      · simp [hj, hlt hj]
      · simp [hj]

/-! ### Storage -/

section
variable {cfg : Config}

theorem tableBits_of_wf {table : List Counter} (h : tableWf cfg table) : tableBits table = 2 * cfg.n := by
  rw [tableBits, h.1]

theorem localBits_of_wf {u : LocalState} (h : localWf cfg u) :
    localBits cfg.n u = cfg.lhrEntries * ceilLog2 cfg.n + 2 * cfg.n := by
  obtain ⟨hlen, -, htable⟩ := h
  rw [localBits, hlen, tableBits_of_wf htable, Nat.mul_comm]

theorem gshareBits_of_wf {u : GshareState} (h : gshareWf cfg u) :
    gshareBits cfg.n u = ceilLog2 cfg.n + 2 * cfg.n := by
  rw [gshareBits, tableBits_of_wf h.2]

end

/-- R36's table, one row per kind. -/
def storageTotal (c : Config) : Kind → Nat
  | .sct => 2 * c.n
  | .loc => c.lhrEntries * ceilLog2 c.n + 2 * c.n
  | .gshare => ceilLog2 c.n + 2 * c.n
  | .tour => c.lhrEntries * ceilLog2 c.n + ceilLog2 c.n + 6 * c.n

theorem storageBits_of_inv {s : State} (hs : s.Inv) : s.storageBits = storageTotal s.cfg s.kind := by
  have hw := hs.unitOk
  unfold State.storageBits State.kind
  cases hu : s.unit with
  | sct u =>
    rw [hu] at hw
    exact tableBits_of_wf hw
  | loc u =>
    rw [hu] at hw
    exact localBits_of_wf hw
  | gshare u =>
    rw [hu] at hw
    exact gshareBits_of_wf hw
  | tour u =>
    rw [hu] at hw
    obtain ⟨hl, hg, hm⟩ := hw
    simp only [localBits_of_wf hl, gshareBits_of_wf hg, tableBits_of_wf hm, UnitState.kind, storageTotal]
    omega

theorem ceilLog2_1024 : ceilLog2 1024 = 10 := by decide

/-- Settles O53: R36's totals over the tables and histories held, and its column for `N = 1024`. -/
theorem storageTotals : Obligations.StorageTotals := by
  intro s hs
  rw [storageBits_of_inv hs]
  constructor
  · cases s.kind <;> rfl
  · intro he hn
    cases s.kind <;> simp [storageTotal, he, hn, ceilLog2_1024]

end Sys2Proof.Machine
end

section
/-! SUPPORT. The tables and registers as the block's memory (20_memory.md): what each TRAIN and RESET leaves unchanged
(R42, R45), that no index leaves its table (R41), and which commands may be repeated (R46). -/

namespace Sys2Proof.Machine

/-! ### What a TRAIN leaves unchanged -/

section
variable {cfg : Config} {pc : Nat} {t : Bool}

theorem localTrain_lhr_other {u u' : LocalState} (h : localTrain cfg u pc t = some u') {b : Nat}
    (hb : b ≠ localBucket cfg.lhrEntries pc) : u'.lhr[b]? = u.lhr[b]? := by
  obtain ⟨idx, c, -, -, rfl⟩ := localTrain_cases h
  exact List.getElem?_set_ne hb.symm

theorem localTrain_phtL_other {u u' : LocalState} (h : localTrain cfg u pc t = some u') {idx j : Nat}
    (hi : localIndex cfg.lhrEntries u pc = some idx) (hj : j ≠ idx) :
    tableRead u'.phtL j = tableRead u.phtL j := by
  obtain ⟨idx', c, hi', -, rfl⟩ := localTrain_cases h
  cases hi.symm.trans hi'
  exact tableRead_tableWrite_other u.phtL _ hj

theorem gshareTrain_phtG_other {u u' : GshareState} (h : gshareTrain cfg u pc t = some u') {j : Nat}
    (hj : j ≠ gshareIndex cfg.n u pc) : tableRead u'.phtG j = tableRead u.phtG j := by
  obtain ⟨c, -, rfl⟩ := gshareTrain_cases h
  exact tableRead_tableWrite_other u.phtG _ hj

end

/-- Settles O25: the one write is `TableWrite(CT, idx, _)`. -/
theorem sctTrainFrame : Obligations.SctTrainFrame := by
  intro s s' u idx t hu h
  rw [exec_sctTrain hu] at h
  split at h
  · cases h
  · obtain ⟨c, -, h⟩ := inTable_eq_next h
    cases h
    exact ⟨rfl, rfl, rfl, _, rfl, fun j hj => tableRead_tableWrite_other u.ct _ hj⟩

/-- Settles O26, by the frame of `localTrain`. -/
theorem localTrainFrame : Obligations.LocalTrainFrame := by
  intro s s' u pc t hu h
  rw [exec_localTrain hu] at h
  obtain ⟨u', hu', h⟩ := inTable_eq_next h
  cases h
  exact ⟨rfl, rfl, rfl, u', rfl, fun _ => localTrain_lhr_other hu', fun _ hi _ => localTrain_phtL_other hu' hi⟩

/-- Settles O27, by the frame of `gshareTrain`. -/
theorem gshareTrainFrame : Obligations.GshareTrainFrame := by
  intro s s' u pc t hu h
  rw [exec_gshareTrain hu] at h
  obtain ⟨u', hu', h⟩ := inTable_eq_next h
  cases h
  exact ⟨rfl, rfl, rfl, u', rfl, fun _ => gshareTrain_phtG_other hu'⟩

/-- Settles O28: the frames of the two sub-predictors' TRAINs (R146), and the one write of META. -/
theorem tourTrainFrame : Obligations.TourTrainFrame := by
  intro s s' u pc t hu h
  rw [exec_tourTrain hu] at h
  obtain ⟨u', hu', h⟩ := inTable_eq_next h
  cases h
  obtain ⟨g, l, m, subL, subG, -, -, -, hL, hG, rfl⟩ := tourTrain_cases hu'
  exact ⟨rfl, rfl, rfl, _, rfl, fun _ => localTrain_lhr_other hL, fun _ hi _ => localTrain_phtL_other hL hi,
    fun _ => gshareTrain_phtG_other hG, fun _ hj => tableRead_tableWrite_other u.metaTable _ hj⟩

/-! ### What a RESET command leaves unchanged -/

theorem exec_reset_commit {i : Instr} {s s' : State} (hi : i.opcode = .reset) (h : exec i s = .next s') :
    s' = s.commit (unitReset s.kind s.cfg) := by
  have hk : i.unit = s.kind := (exec_next_cases h).1
  rw [exec_reset hi hk, hk] at h
  cases h
  rfl

/-- Settles O29: a RESET command commits the reset value of the unit's own kind. -/
theorem resetCommandFrame : Obligations.ResetCommandFrame := by
  intro i s s' hi h
  cases exec_reset_commit hi h
  exact ⟨State.commit_cfg .., State.commit_faultRecord .., State.commit_inputs .., unitReset_kind ..,
    State.commit_resp ..⟩

/-! ### No index leaves its table -/

section
variable {cfg : Config} (hn : 1 ≤ cfg.n) (he : 1 ≤ cfg.lhrEntries)

section
variable {u : LocalState} (hw : localWf cfg u)
include he hw

theorem localPredict_of_wf (pc : Nat) : ∃ taken, localPredict cfg.lhrEntries u pc = some taken := by
  obtain ⟨idx, c, hi, hc⟩ := localReads_of_wf he hw pc
  exact ⟨_, localPredict_eq hi hc⟩

theorem localTrain_of_wf (pc : Nat) (t : Bool) : ∃ u', localTrain cfg u pc t = some u' := by
  obtain ⟨idx, c, hi, hc⟩ := localReads_of_wf he hw pc
  exact ⟨_, localTrain_eq t hi hc⟩

end

section
variable (hp : isPowerOfTwo cfg.n = true)
include hn hp

section
variable {u : GshareState} (hw : gshareWf cfg u)
include hw

theorem gsharePredict_of_wf (pc : Nat) : ∃ taken, gsharePredict cfg.n u pc = some taken := by
  obtain ⟨c, hc⟩ := gshareRead_of_wf hn hp hw pc
  exact ⟨_, gsharePredict_eq hc⟩

theorem gshareTrain_of_wf (pc : Nat) (t : Bool) : ∃ u', gshareTrain cfg u pc t = some u' := by
  obtain ⟨c, hc⟩ := gshareRead_of_wf hn hp hw pc
  exact ⟨_, gshareTrain_eq t hc⟩

end

section
variable {u : TourState} (hw : tourWf cfg u)
include hw

omit hp in
theorem metaRead_of_wf (pc : Nat) : ∃ m, tableRead u.metaTable (metaIndex cfg.n pc) = some m := by
  obtain ⟨-, -, hlen, -⟩ := hw
  exact tableRead_of_lt (hlen ▸ metaIndex_lt hn pc)

include he

theorem tourPredict_of_wf (pc : Nat) : ∃ taken, tourPredict cfg u pc = some taken := by
  obtain ⟨m, hm⟩ := metaRead_of_wf hn hw pc
  obtain ⟨hwL, hwG, -⟩ := hw
  rw [tourPredict_eq hm]
  split
  · exact gsharePredict_of_wf hn hp hwG pc
  · exact localPredict_of_wf he hwL pc

theorem tourTrain_of_wf (pc : Nat) (t : Bool) : ∃ u', tourTrain cfg u pc t = some u' := by
  obtain ⟨m, hm⟩ := metaRead_of_wf hn hw pc
  obtain ⟨hwL, hwG, -⟩ := hw
  obtain ⟨g, hg⟩ := gsharePredict_of_wf hn hp hwG pc
  obtain ⟨l, hl⟩ := localPredict_of_wf he hwL pc
  obtain ⟨subL, hL⟩ := localTrain_of_wf he hwL pc t
  obtain ⟨subG, hG⟩ := gshareTrain_of_wf hn hp hwG pc t
  exact ⟨_, tourTrain_eq hg hl hm hL hG⟩

end

end

end

theorem inTable_completes {α : Type} {x : Option α} (hx : ∃ a, x = some a) (f : α → State) :
    ∃ s', inTable x (fun a => .next (f a)) = .next s' := by
  obtain ⟨a, rfl⟩ := hx
  exact ⟨f a, rfl⟩

section
variable {s : State} {u : SctState} (hu : s.unit = .sct u) {idx : Nat} {c : Counter}
include hu

theorem exec_sctTrain_of_read (hi : idx < s.cfg.n) (hc : tableRead u.ct idx = some c) (t : Bool) :
    exec (.sctTrain idx t) s =
      .next (s.commit (.sct ⟨tableWrite u.ct idx (ctrUpdate s.cfg.ctrMax c t)⟩)) := by
  rw [exec_sctTrain hu, if_neg (Nat.not_le.mpr hi), hc, inTable_some]

theorem exec_sctPredict_of_read (hi : idx < s.cfg.n) (hc : tableRead u.ct idx = some c) :
    exec (.sctPredict idx) s = .next (s.respond ⟨predBit c, some c⟩) := by
  rw [exec_sctPredict hu, if_neg (Nat.not_le.mpr hi), hc, inTable_some]

end

/-- A command of the instance's own unit completes from legal values, an SCT index being within the table (R41,
R105, R125, R140). -/
theorem exec_completes {s : State} (hs : s.Inv) {i : Instr} (hk : i.unit = s.kind)
    (hidx : i.unit = .sct → i.opcode ≠ .reset → i.addr < s.cfg.n) : ∃ s', exec i s = .next s' := by
  have hn : 1 ≤ s.cfg.n := one_le_of_legal hs.cfgLegal
  have he : 1 ≤ s.cfg.lhrEntries := one_le_lhrEntries_of_numbersOk hs.numbersOk
  have hp := fun h => isPowerOfTwo_of_legal hs.cfgLegal h
  have hw := hs.unitOk
  by_cases hr : i.opcode = .reset
  · exact ⟨_, exec_reset hr hk⟩
  cases hu : s.unit with
  | sct u =>
    rw [hu] at hw
    rw [State.kind_of hu] at hk
    have hlt : i.addr < s.cfg.n := hidx hk hr
    obtain ⟨c, hc⟩ := tableRead_of_lt (table := u.ct) (hw.1.symm ▸ hlt)
    cases i <;> cases hk
    · exact absurd rfl hr
    · exact ⟨_, exec_sctPredict_of_read hu hlt hc⟩
    · exact ⟨_, exec_sctTrain_of_read hu hlt hc _⟩
  | loc u =>
    rw [hu] at hw
    rw [State.kind_of hu] at hk
    cases i <;> cases hk
    · exact absurd rfl hr
    · rw [exec_localPredict hu]; exact inTable_completes (localPredict_of_wf he hw _) _
    · rw [exec_localTrain hu]; exact inTable_completes (localTrain_of_wf he hw _ _) _
  | gshare u =>
    rw [hu] at hw
    rw [State.kind_of hu] at hk hp
    cases i <;> cases hk
    · exact absurd rfl hr
    · rw [exec_gsharePredict hu]; exact inTable_completes (gsharePredict_of_wf hn (hp rfl) hw _) _
    · rw [exec_gshareTrain hu]; exact inTable_completes (gshareTrain_of_wf hn (hp rfl) hw _ _) _
  | tour u =>
    rw [hu] at hw
    rw [State.kind_of hu] at hk hp
    cases i <;> cases hk
    · exact absurd rfl hr
    · rw [exec_tourPredict hu]; exact inTable_completes (tourPredict_of_wf hn he (hp rfl) hw _) _
    · rw [exec_tourTrain hu]; exact inTable_completes (tourTrain_of_wf hn he (hp rfl) hw _ _) _

/-- An SCT index of N or more is the one error of a command of the instance's own unit (R175). -/
theorem exec_sct_outOfRange {s : State} {i : Instr} (hk : i.unit = s.kind) (hsct : i.unit = .sct)
    (hr : i.opcode ≠ .reset) (hn : s.cfg.n ≤ i.addr) :
    exec i s = .fault (.commandError (.indexOutOfRange i.addr)) := by
  cases hu : s.unit with
  | sct u =>
    cases i <;> cases hsct
    · exact absurd rfl hr
    · rw [exec_sctPredict hu]; exact if_pos hn
    · rw [exec_sctTrain hu]; exact if_pos hn
  | _ => rw [hsct, State.kind_of hu] at hk; cases hk

/-- An outcome that is neither the fault of an index outside its table nor a refusal (R41; logs 7, 8). -/
def HasMeaning (r : Result) : Prop := r ≠ .fault .indexOutsideTable ∧ ∀ x, r ≠ .refused x

theorem hasMeaning_next (s : State) : HasMeaning (.next s) := ⟨nofun, nofun⟩

theorem hasMeaning_commandError (e : CommandError) : HasMeaning (.fault (.commandError e)) := ⟨nofun, nofun⟩

theorem exec_hasMeaning {s : State} (hs : s.Inv) {i : Instr} (hk : i.unit = s.kind) : HasMeaning (exec i s) := by
  by_cases h : i.unit = .sct ∧ i.opcode ≠ .reset ∧ s.cfg.n ≤ i.addr
  · obtain ⟨hsct, hr, hn⟩ := h
    rw [exec_sct_outOfRange hk hsct hr hn]
    exact hasMeaning_commandError _
  · obtain ⟨s', h'⟩ := exec_completes hs hk fun hsct hr => Nat.lt_of_not_le fun hn => h ⟨hsct, hr, hn⟩
    rw [h']
    exact hasMeaning_next s'

theorem decode_ne_wordTooWide {k : Kind} {pw w : Nat} (hw : w < 2 ^ (8 + pw)) :
    decode k pw w ≠ .error .wordTooWide := by
  rw [decode, fitsWord_iff.mpr hw]
  split
  · next h => cases h
  · split
    · nofun
    · split
      · nofun
      · split <;> nofun

theorem runWord_hasMeaning {s : State} (hs : s.Inv) {w : Nat} (hw : w < 2 ^ (8 + s.cfg.pcWidth)) :
    HasMeaning (runWord w s) := by
  unfold runWord
  split
  · next i hd => exact exec_hasMeaning hs (decode_unit hd)
  · exact hasMeaning_commandError _
  · next hd => exact absurd hd (decode_ne_wordTooWide hw)

theorem runCycle_hasMeaning {s : State} (hs : s.Inv) {c : HostCycle} (hc : c.cmd < 2 ^ (8 + s.cfg.pcWidth)) :
    HasMeaning (runCycle c s) := by
  unfold runCycle
  split
  · exact hasMeaning_next _
  · split
    · exact hasMeaning_next _
    · exact runWord_hasMeaning hs hc

/-- Settles O35: a step is an idle cycle or `runCycle`, whose command is one of the instance's own unit, and every
index of such a command is inside its table. -/
theorem noIndexLeavesItsTable : Obligations.NoIndexLeavesItsTable := by
  intro s hs
  cases hi : s.inputs with
  | nil => rw [step, nextCycle, hi]; exact hasMeaning_next _
  | cons c rest =>
    rw [step_of_inputs hi]
    exact runCycle_hasMeaning (hs.dropInput hi) (hs.inputsOk c (hi ▸ List.mem_cons_self))

/-! ### Repeated commands -/

/-- A PREDICT reads the parameters and the unit's state and nothing else (R33): every state that shares these gets the
same response. -/
theorem exec_predict_of_same_unit {i : Instr} {s t : State} (hi : i.opcode = .predict) (h : exec i s = .next t) :
    ∃ r, t = s.respond r ∧ ∀ s₂ : State, s₂.cfg = s.cfg → s₂.unit = s.unit → exec i s₂ = .next (s₂.respond r) := by
  cases i with
  | sctPredict idx =>
    obtain ⟨u, hs, h⟩ := onSct_eq_next _ h
    split at h
    · cases h
    · next hlt =>
      obtain ⟨c, hr, h⟩ := inTable_eq_next h
      cases h
      exact ⟨_, rfl, fun s₂ hc hu => exec_sctPredict_of_read (hu.trans hs) (hc ▸ Nat.lt_of_not_le hlt) hr⟩
  | localPredict pc =>
    obtain ⟨u, hs, h⟩ := onLocal_eq_next _ h
    obtain ⟨taken, hr, h⟩ := inTable_eq_next h
    cases h
    exact ⟨_, rfl, fun s₂ hc hu => by rw [exec_localPredict (hu.trans hs), hc, hr, inTable_some]⟩
  | gsharePredict pc =>
    obtain ⟨u, hs, h⟩ := onGshare_eq_next _ h
    obtain ⟨taken, hr, h⟩ := inTable_eq_next h
    cases h
    exact ⟨_, rfl, fun s₂ hc hu => by rw [exec_gsharePredict (hu.trans hs), hc, hr, inTable_some]⟩
  | tourPredict pc =>
    obtain ⟨u, hs, h⟩ := onTour_eq_next _ h
    obtain ⟨taken, hr, h⟩ := inTable_eq_next h
    cases h
    exact ⟨_, rfl, fun s₂ hc hu => by rw [exec_tourPredict (hu.trans hs), hc, hr, inTable_some]⟩
  | _ => cases hi

theorem exec_predict_repeats {i : Instr} {s s' : State} (hi : i.opcode = .predict) (h : exec i s = .next s') :
    exec i s' = .next s' := by
  obtain ⟨r, rfl, hsame⟩ := exec_predict_of_same_unit hi h
  exact hsame _ (State.respond_cfg ..) (State.respond_unit ..)

theorem exec_reset_repeats {i : Instr} {s s' : State} (hi : i.opcode = .reset) (h : exec i s = .next s') :
    exec i s' = .next s' := by
  have hk : i.unit = s.kind := (exec_next_cases h).1
  cases exec_reset_commit hi h
  rw [exec_reset hi (by rw [hk, State.commit_kind, unitReset_kind]), hk]
  rfl

theorem ctrUpdate_taken_twice_toNat (max c : Counter) :
    (ctrUpdate max (ctrUpdate max c true) true).toNat = min (c.toNat + 2) max.toNat := by
  simp only [ctrUpdate_toNat, if_true]
  omega

theorem exec_sctTrain_updates {s : State} {u : SctState} (hu : s.unit = .sct u) {idx : Nat} {c : Counter}
    (hi : idx < s.cfg.n) (hc : tableRead u.ct idx = some c) (t : Bool) :
    ∃ s' u', exec (.sctTrain idx t) s = .next s' ∧ s'.cfg = s.cfg ∧ s'.unit = .sct u' ∧
      tableRead u'.ct idx = some (ctrUpdate s.cfg.ctrMax c t) :=
  ⟨_, _, exec_sctTrain_of_read hu hi hc t, State.commit_cfg .., State.commit_unit ..,
    tableRead_tableWrite_same (lt_length_of_tableRead hc) _⟩

/-- R46's TRAIN: two SCT.TRAINs of one index apply the update twice to its counter. -/
theorem sctTrain_twice {s : State} {u : SctState} (hu : s.unit = .sct u) {idx : Nat} {c : Counter}
    (hi : idx < s.cfg.n) (hc : tableRead u.ct idx = some c) (t : Bool) :
    ∃ s' u', runCommands [.sctTrain idx t, .sctTrain idx t] s = .next s' ∧ s'.unit = .sct u' ∧
      tableRead u'.ct idx = some (ctrUpdate s.cfg.ctrMax (ctrUpdate s.cfg.ctrMax c t) t) := by
  obtain ⟨s₁, u₁, h₁, hcfg, hu₁, hc₁⟩ := exec_sctTrain_updates hu hi hc t
  rw [← hcfg] at hi
  obtain ⟨s₂, u₂, h₂, -, hu₂, hc₂⟩ := exec_sctTrain_updates hu₁ hi hc₁ t
  rw [hcfg] at hc₂
  exact ⟨s₂, u₂, by rw [runCommands_cons_of_next h₁, runCommands_cons_of_next h₂, runCommands], hu₂, hc₂⟩

/-- Settles O48: a PREDICT changes nothing it reads, a RESET writes the same values again, and a TRAIN adds on. -/
theorem idempotencyOfCommands : Obligations.IdempotencyOfCommands := by
  constructor
  · intro i s s' hi h
    cases ho : i.opcode with
    | reset => exact exec_reset_repeats ho h
    | predict => exact exec_predict_repeats ho h
    | train => exact absurd ho hi
  · intro s u idx c hu hi hc
    obtain ⟨s', u', hrun, hu', hread⟩ := sctTrain_twice hu hi hc true
    have hv := ctrUpdate_taken_twice_toNat s.cfg.ctrMax c
    refine ⟨s', u', _, hrun, hu', hread, hv, fun hmax hc1 => BitVec.eq_of_toNat_eq ?_⟩
    rw [hv, hmax, hc1]
    rfl

end Sys2Proof.Machine
end

section
/-! SUPPORT. The command word (30_encoding.md): encoding and decoding agree (R61 to R71), the decoder's checks in
their order (R68), which cycles answer (R67, R73), how a presented word runs (R63, R74), and the assembler (R71, R72). -/

namespace Sys2Proof

/-! ### The encoder and the decoder -/

theorem decode_encode {pw : Nat} {i : Instr} (h : i.wf pw = true) : decode i.unit pw (encode i) = .ok i := by
  refine decode_eq_ok_iff.mpr
    ⟨Laws.EncodeFits.of_addr i pw h, rsvField_encode i, unitField_encode i, i.opcode, opField_encode i, ?_⟩
  rw [addrField_encode, tField_encode, i2b_b2i, instrOf_parts]

/-- Settles O2: each field of the encoded word is the command's own part, and the parts give the command back. -/
theorem encodedCommandDecodesBack : Obligations.EncodedCommandDecodesBack :=
  fun _ _ => decode_encode

/-- Settles O1, by running the decoder. -/
theorem writtenWordsDecode : Obligations.WrittenWordsDecode :=
  ⟨rfl, rfl, rfl, rfl, rfl, rfl, rfl, rfl, rfl⟩

/-- R61: a word is its five fields, each at its place. -/
theorem word_eq_fields (w : Nat) :
    w = 256 * addrField w + (32 * rsvField w + 16 * tField w + 4 * unitField w + opField w) := by
  unfold addrField rsvField tField unitField opField
  omega

theorem tField_lt (w : Nat) : tField w < 2 := Nat.mod_lt _ (by decide)

theorem b2i_i2b {x : Nat} (h : x < 2) : b2i (i2b x) = x := by
  interval_cases x <;> rfl

/-! R69: the word of each operation's command; the ignored bits are 0 (R71). -/

theorem encode_instrOf_reset (k : Kind) (a : Nat) (t : Bool) : encode (instrOf k .reset a t) = 4 * k.code := by
  simp [encode, instrOf_addr, instrOf_outcome, Opcode.code, Nat.mul_comm]

theorem encode_instrOf_predict (k : Kind) (a : Nat) (t : Bool) :
    encode (instrOf k .predict a t) = 256 * a + (4 * k.code + 1) := by
  simp [encode, instrOf_addr, instrOf_outcome, Opcode.code, Nat.mul_comm]

theorem encode_instrOf_train (k : Kind) (a : Nat) (t : Bool) :
    encode (instrOf k .train a t) = 256 * a + (16 * b2i t + 4 * k.code + 2) := by
  simp [encode, instrOf_addr, instrOf_outcome, Opcode.code, Nat.mul_comm]

/-- Settles O3: of a word that decodes, TRAIN's command keeps every field, PREDICT's drops T, RESET's drops T and
ADDR. -/
theorem decodedWordIsItsCommandsWord : Obligations.DecodedWordIsItsCommandsWord := by
  intro k pw w i h
  have haddr := decode_addr_lt h
  obtain ⟨hw, hrsv, hunit, op, hop, rfl⟩ := decode_eq_ok_iff.mp h
  have hword := word_eq_fields w
  have htf := tField_lt w
  refine ⟨instrOf_unit .., decide_eq_true haddr, hw, fun ho => ?train, fun ho => ?predict, fun ho => ?reset⟩
  all_goals
    rw [instrOf_opcode] at ho
    subst ho
  case train =>
    have hop : opField w = 2 := hop
    rw [encode_instrOf_train, b2i_i2b htf]
    omega
  case predict =>
    have hop : opField w = 1 := hop
    rw [encode_instrOf_predict]
    omega
  case reset =>
    have hop : opField w = 0 := hop
    have hk := k.code_lt
    rw [encode_instrOf_reset]
    omega

/-! ### The decoder's checks -/

theorem Kind.code_injective : Function.Injective Kind.code := Function.LeftInverse.injective kindOfCode_code

theorem Opcode.code_injective : Function.Injective Opcode.code := fun op op' h =>
  Option.some.inj (by rw [← opcodeOfCode_code op, ← opcodeOfCode_code op', h])

/-- R62: a field OP other than `0b11` names an operation. -/
theorem exists_opcode_of_opField_ne_three {w : Nat} (h : opField w ≠ 3) : ∃ op : Opcode, opField w = op.code := by
  have hlt : opField w < 4 := Nat.mod_lt _ (by decide)
  generalize opField w = x at h hlt
  interval_cases x
  · exact ⟨.reset, rfl⟩
  · exact ⟨.predict, rfl⟩
  · exact ⟨.train, rfl⟩
  · exact absurd rfl h

section
variable {k : Kind} {pw w : Nat} (hw : w < 2 ^ (8 + pw))
include hw

theorem decode_of_reservedBits (hr : rsvField w ≠ 0) : decode k pw w = .error (.illegal .reservedBits) := by
  simp [decode, fitsWord_iff.mpr hw, hr]

theorem decode_of_reservedOp (hr : rsvField w = 0) (ho : opField w = 3) :
    decode k pw w = .error (.illegal .reservedOp) := by
  simp [decode, fitsWord_iff.mpr hw, hr, ho, opcodeOfCode]

theorem decode_of_unitMismatch (hr : rsvField w = 0) (ho : opField w ≠ 3) (hu : unitField w ≠ k.code) :
    decode k pw w = .error (.illegal .unitMismatch) := by
  obtain ⟨op, hop⟩ := exists_opcode_of_opField_ne_three ho
  simp [decode, fitsWord_iff.mpr hw, hr, hop, hu]

end

/-! The fields by the bits of the word (R61). -/

section
variable (w : Nat)

theorem b2i_testBit (j : Nat) : b2i (w.testBit j) = w / 2 ^ j % 2 := by
  rw [← Nat.toNat_testBit]
  cases w.testBit j <;> rfl

theorem opField_eq_bits : opField w = 2 * b2i (w.testBit 1) + b2i (w.testBit 0) := by
  rw [b2i_testBit, b2i_testBit, opField]
  omega

theorem unitField_eq_bits : unitField w = 2 * b2i (w.testBit 3) + b2i (w.testBit 2) := by
  rw [b2i_testBit, b2i_testBit, unitField]
  omega

theorem rsvField_eq_bits :
    rsvField w = 4 * b2i (w.testBit 7) + 2 * b2i (w.testBit 6) + b2i (w.testBit 5) := by
  rw [b2i_testBit, b2i_testBit, b2i_testBit, rsvField]
  omega

theorem i2b_tField : i2b (tField w) = w.testBit 4 := by
  have h : tField w = b2i (w.testBit 4) := (b2i_testBit w 4).symm
  rw [h, i2b_b2i]

theorem rsvField_ne_zero_iff : rsvField w ≠ 0 ↔ (w.testBit 5 || w.testBit 6 || w.testBit 7) = true := by
  have h : ∀ b₅ b₆ b₇ : Bool, 4 * b2i b₇ + 2 * b2i b₆ + b2i b₅ ≠ 0 ↔ (b₅ || b₆ || b₇) = true := by decide
  rw [rsvField_eq_bits]
  exact h _ _ _

theorem opField_eq_three_iff : opField w = 3 ↔ (w.testBit 0 && w.testBit 1) = true := by
  have h : ∀ b₀ b₁ : Bool, 2 * b2i b₁ + b2i b₀ = 3 ↔ (b₀ && b₁) = true := by decide
  rw [opField_eq_bits]
  exact h _ _

end

/-- R62: the operation by the bits of the field OP. -/
theorem opcode_of_bits {w : Nat} {op : Opcode} (h : opField w = op.code) :
    (¬ w.testBit 0 = true → ¬ w.testBit 1 = true → op = .reset) ∧
    (w.testBit 0 = true → op = .predict) ∧ (w.testBit 1 = true → op = .train) := by
  rw [opField_eq_bits] at h
  generalize w.testBit 0 = b₀ at h ⊢
  generalize w.testBit 1 = b₁ at h ⊢
  revert b₀ b₁
  cases op <;> decide

/-- Settles O4: the first check that fails gives the reason, and a word that passes them all is `instrOf` of its
fields. -/
theorem decoderFollowsTheFieldTable : Obligations.DecoderFollowsTheFieldTable := by
  refine ⟨⟨rfl, rfl, rfl, rfl⟩, fun k pw w hw => ?_⟩
  simp only [← unitField_eq_bits, ← Bool.not_eq_true, ← rsvField_ne_zero_iff, ← opField_eq_three_iff, not_not]
  refine ⟨decode_of_reservedBits hw, decode_of_reservedOp hw, decode_of_unitMismatch hw, fun hr ho hu => ?_⟩
  obtain ⟨op, hop⟩ := exists_opcode_of_opField_ne_three ho
  obtain ⟨hreset, hpredict, htrain⟩ := opcode_of_bits hop
  refine ⟨_, decode_eq_ok_iff.mpr ⟨hw, hr, hu, op, hop, rfl⟩, instrOf_unit .., ?_, ?_, ?_⟩
  · rwa [instrOf_opcode]
  · intro h
    cases hpredict h
    exact ⟨instrOf_opcode .., instrOf_addr ..⟩
  · intro h
    cases htrain h
    exact ⟨instrOf_opcode .., instrOf_addr .., (instrOf_outcome ..).trans (i2b_tField w)⟩

end Sys2Proof

namespace Sys2Proof.Machine

/-! ### A presented word -/

theorem runWord_of_decode {s : State} {w : Nat} {i : Instr} (h : decode s.kind s.cfg.pcWidth w = .ok i) :
    runWord w s = exec i s := by
  simp [runWord, h]

theorem runCycle_presentWord {s : State} (h : s.faultRecord = none) (w : Nat) :
    runCycle (presentWord w) s = runWord w s := by
  simp [runCycle, presentWord, State.faultPort, h]

/-- R68, R196: a presented word that decodes runs its command. -/
theorem step_of_presented {s : State} {w : Nat} {rest : List HostCycle} {i : Instr}
    (hi : s.inputs = presentWord w :: rest) (hf : s.faultRecord = none)
    (hd : decode s.kind s.cfg.pcWidth w = .ok i) : step s = exec i { s with inputs := rest } :=
  calc step s
    _ = runCycle (presentWord w) { s with inputs := rest } := step_of_inputs hi
    _ = runWord w { s with inputs := rest } :=
      runCycle_presentWord (s := { s with inputs := rest }) hf w
    _ = exec i { s with inputs := rest } := runWord_of_decode hd

/-- Settles O38: the host's presentation is `presentWord` of the word. -/
theorem stepRunsDecodedCommand : Obligations.StepRunsDecodedCommand :=
  fun _ _ _ _ => step_of_presented

theorem kindOfCode_unitField {k : Kind} {pw w : Nat} {i : Instr} (h : decode k pw w = .ok i) :
    kindOfCode (unitField w) = k := by
  obtain ⟨-, -, hu, -⟩ := decode_eq_ok_iff.mp h
  rw [hu, kindOfCode_code]

/-- Log 3: the step after `presentNext` runs the word on an instance of its unit with no fault recorded. -/
theorem step_presentNext {s : State} {w : Nat} {i : Instr} (hd : decode i.unit s.cfg.pcWidth w = .ok i) :
    step (s.presentNext w) = exec i { s.selectUnit i.unit with faultRecord := none } := by
  have hd' : decode (s.selectUnit i.unit).kind (s.selectUnit i.unit).cfg.pcWidth w = .ok i := by
    rwa [State.selectUnit_kind, State.selectUnit_cfg]
  rw [State.presentNext, kindOfCode_unitField hd]
  exact step_of_presented rfl rfl hd'

/-- Settles O39: `withFetchWord` is `presentNext` of the word's low bits. -/
theorem fetchWordRunsNext : Obligations.FetchWordRunsNext := by
  intro s nbits w i x hd
  exact ⟨{ s.selectUnit i.unit with faultRecord := none }, step_presentNext hd, State.selectUnit_kind ..,
    State.selectUnit_cfg .., rfl, State.selectUnit_inputs .., State.selectUnit_resp .., State.selectUnit_unit ..⟩

/-! ### A command of another unit -/

section
variable {s : State} (i : Instr)

theorem onSct_of_other_unit (h : s.kind ≠ .sct) (f : SctState → Result) : onSct i s f = s.wrongUnit i := by
  unfold onSct
  split
  · next hu => exact absurd (State.kind_of hu) h
  all_goals rfl

theorem onLocal_of_other_unit (h : s.kind ≠ .loc) (f : LocalState → Result) : onLocal i s f = s.wrongUnit i := by
  unfold onLocal
  split
  case h_2 hu => exact absurd (State.kind_of hu) h
  all_goals rfl

theorem onGshare_of_other_unit (h : s.kind ≠ .gshare) (f : GshareState → Result) :
    onGshare i s f = s.wrongUnit i := by
  unfold onGshare
  split
  case h_3 hu => exact absurd (State.kind_of hu) h
  all_goals rfl

theorem onTour_of_other_unit (h : s.kind ≠ .tour) (f : TourState → Result) : onTour i s f = s.wrongUnit i := by
  unfold onTour
  split
  case h_4 hu => exact absurd (State.kind_of hu) h
  all_goals rfl

end

theorem exec_of_other_unit {s : State} {i : Instr} (h : s.kind ≠ i.unit) : exec i s = s.wrongUnit i := by
  cases i with
  | sctReset | sctPredict | sctTrain => exact onSct_of_other_unit _ h _
  | localReset | localPredict | localTrain => exact onLocal_of_other_unit _ h _
  | gshareReset | gsharePredict | gshareTrain => exact onGshare_of_other_unit _ h _
  | tourReset | tourPredict | tourTrain => exact onTour_of_other_unit _ h _

/-- Settles O41: `exec` takes the arm of its unit, and the word passes the decoder's first two checks only. -/
theorem commandOfAnotherUnitIsRefused : Obligations.CommandOfAnotherUnitIsRefused := by
  intro s i h
  refine ⟨exec_of_other_unit h.symm, fun hwf => ?_⟩
  have hop := i.opcode.code_lt
  refine decode_of_unitMismatch (Laws.EncodeFits.of_addr i _ hwf) (rsvField_encode i) ?_ ?_
  · rw [opField_encode]
    omega
  · rw [unitField_encode]
    exact Kind.code_injective.ne h

/-! ### Which cycles answer -/

/-- R67: of the commands that complete, exactly a PREDICT answers. -/
theorem exec_resp_isSome_iff {i : Instr} {s s' : State} (h : exec i s = .next s') :
    s'.resp.isSome = true ↔ i.opcode = .predict := by
  obtain ⟨-, ⟨hi, r, rfl⟩ | ⟨hi, u, rfl, -⟩⟩ := exec_next_cases h
  · simp [hi]
  · simp [hi]

/-- Settles O45, by the things a step with an input can do: `rst` and an ignored cycle answer nothing, and a command
that completes answers where it is a PREDICT. -/
theorem responseValidExactlyForPredict : Obligations.ResponseValidExactlyForPredict := by
  intro s s' c rest hin h
  unfold State.respValidPort
  obtain ⟨-, hnil⟩ | ⟨c', rest', hin', hcases⟩ := step_next_cases h
  · rw [hnil] at hin
    cases hin
  · cases hin.symm.trans hin'
    obtain ⟨hr, rfl⟩ | ⟨hr, hf, rfl⟩ | ⟨hr, hf, hv, i, hd, hi⟩ := hcases
    · simp [hr]
    · simp only [State.noResponse_resp, Option.isSome_none, Bool.false_eq_true, false_iff]
      rintro ⟨hv, -, hnone, -⟩
      simp [State.faultPort, hnone, hv] at hf
    · rw [exec_resp_isSome_iff hi]
      simp [hr, hf, hv, hd]

/-! ### The assembler -/

/-- Settles O56, by running the assembler. -/
theorem assemblerReadsWrittenLines : Obligations.AssemblerReadsWrittenLines :=
  ⟨rfl, rfl, rfl, rfl, rfl, rfl, rfl, rfl, rfl⟩

theorem assembleLine_eq_ok_iff {pw : Nat} {line : AsmLine} {ws : List Nat} :
    assembleLine pw line = .ok ws ↔ (∀ i ∈ expandLine line, i.wf pw = true) ∧ ws = (expandLine line).map encode := by
  rw [assembleLine, ← List.all_eq_true]
  split
  · next h =>
    rw [Except.ok.injEq, eq_comm]
    exact (and_iff_right h).symm
  · next h => exact iff_of_false nofun fun h' => h h'.1

/-- Settles O57: the words are the commands' own, which decode back. -/
theorem assembledWordsDecodeToTheLine : Obligations.AssembledWordsDecodeToTheLine := by
  intro pw line ws h
  obtain ⟨hwf, rfl⟩ := assembleLine_eq_ok_iff.mp h
  exact List.forall₂_map_right_iff.mpr (List.forall₂_same.mpr fun i hi => decode_encode (hwf i hi))

theorem instrOf_wf {pw a : Nat} (h : a < 2 ^ pw) (k : Kind) (op : Opcode) (t : Bool) :
    (instrOf k op a t).wf pw = true := by
  refine decide_eq_true ?_
  rw [instrOf_addr]
  split
  · exact Nat.two_pow_pos pw
  · exact h

theorem runCommands_singleton (i : Instr) (s : State) : runCommands [i] s = exec i s := by
  cases h : exec i s <;> simp [runCommands, h]

/-- Settles O58: the two words of R69, and a run through the PREDICT, whose response is there. -/
theorem branchPseudoInstructionExpands : Obligations.BranchPseudoInstructionExpands := by
  intro pw k a t ha
  constructor
  · refine assembleLine_eq_ok_iff.mpr ⟨?_, ?_⟩
    · simp [expandLine, instrOf_wf ha]
    · simp [expandLine, encode_instrOf_predict, encode_instrOf_train]
  · intro s s1 h
    rw [expandLine, runCommands_cons_of_next h, runCommands_singleton]
    exact ⟨rfl, (exec_resp_isSome_iff h).mpr (instrOf_opcode ..)⟩

end Sys2Proof.Machine
end

section
/-! SUPPORT. The counter table (40_counter_table.md): the counter arithmetic of R80 to R83, the three SCT commands
(R84 to R86), and that every command the instance performs completes. -/

namespace Sys2Proof

/-! ### The two headers of a command that ignores T -/

theorem instrOf_ignores_outcome {op : Opcode} (h : op ≠ .train) (k : Kind) (a : Nat) (t t' : Bool) :
    instrOf k op a t = instrOf k op a t' := by
  cases op with
  | train => exact absurd rfl h
  | _ => cases k <;> rfl

/-- R64, R69: a RESET or PREDICT has two headers, which differ in the ignored bit T. -/
theorem decode_word_of_ignored_outcome {k : Kind} {pw a h : Nat} {op : Opcode} (hop : op ≠ .train)
    (ha : a < 2 ^ pw) (hh : h ∈ [4 * k.code + op.code, 4 * k.code + op.code + 16]) :
    decode k pw (256 * a + h) = .ok (instrOf k op a false) := by
  have hcodes : k.code < 4 ∧ op.code < 3 := ⟨k.code_lt, op.code_lt⟩
  have hcases : h = 4 * k.code + op.code ∨ h = 4 * k.code + op.code + 16 := by simpa using hh
  rw [decode_word (k := k) (op := op) ha (by omega) (by omega) (by omega)]
  exact congrArg _ (instrOf_ignores_outcome hop k a _ false)

end Sys2Proof

namespace Sys2Proof.Machine

/-! ### The counter arithmetic -/

theorem ctrUpdate_taken (max c : Counter) : ctrUpdate max c true = satInc max c := rfl

theorem ctrUpdate_notTaken (max c : Counter) : ctrUpdate max c false = satDec c := rfl

theorem satInc_toNat (max c : Counter) : (satInc max c).toNat = min (c.toNat + 1) max.toNat :=
  ctrUpdate_toNat max c true

theorem satDec_toNat (c : Counter) : (satDec c).toNat = c.toNat - 1 := ctrUpdate_toNat 0 c false

/-- Settles O5: the closed forms of the two saturating steps, and R82's eight rows by running the update. -/
theorem saturatingCounterArithmetic : Obligations.SaturatingCounterArithmetic := by
  refine ⟨fun c => ⟨satInc_toNat 3#2 c, ?_⟩, by decide, by decide,
    fun top c => ⟨satInc_toNat top c, ctrUpdate_taken top c, ctrUpdate_notTaken top c⟩⟩
  rw [satDec_toNat, Nat.max_zero]

/-- R83's set: two bits from 2 upward are 2 and 3. -/
theorem two_le_toNat_iff : ∀ c : Counter, 2 ≤ c.toNat ↔ c = 2#2 ∨ c = 3#2 := by decide

/-- Settles O6: bit 1 is set exactly from 2 upward. -/
theorem predictionIsBitOne : Obligations.PredictionIsBitOne := fun c =>
  ⟨predBit_eq_bit_one c, (predBit_iff_two_le c).trans (two_le_toNat_iff c)⟩

/-! ### The SCT commands -/

/-- Settles O12: the two headers differ in the ignored bit T, and the command commits `sctResetState`. -/
theorem sctResetResult : Obligations.SctResetResult := by
  constructor
  · intro pw a h ha hh
    exact decode_word_of_ignored_outcome (k := .sct) (op := .reset) nofun ha hh
  · intro s u hu
    exact exec_sctReset hu

/-- R23: every index below N is an entry of `CT`. -/
theorem sctRead_of_inv {s : State} {u : SctState} (hs : s.Inv) (hu : s.unit = .sct u) {i : Nat}
    (hi : i < s.cfg.n) : ∃ c, tableRead u.ct i = some c := by
  have hw := hs.unitOk
  rw [hu] at hw
  obtain ⟨hlen, -⟩ := hw
  exact tableRead_of_lt (hlen ▸ hi)

/-- Settles O13: below N the read of `CT` succeeds, and its `predBit` is bit 1; from N on the check comes first. -/
theorem sctPredictResult : Obligations.SctPredictResult := by
  constructor
  · intro pw a h ha hh
    exact decode_word_of_ignored_outcome (k := .sct) (op := .predict) nofun ha hh
  · intro s u i hs hu
    constructor
    · intro hi
      obtain ⟨c, hc⟩ := sctRead_of_inv hs hu hi
      refine ⟨c, hc, ?_⟩
      rw [exec_sctPredict_of_read hu hi hc, predBit_eq_bit_one]
      rfl
    · intro hi
      exact exec_sct_outOfRange (i := .sctPredict i) (State.kind_of hu).symm rfl nofun hi

/-- Settles O14: below N the counter read moves by `ctrUpdate`, in R80's and R81's arithmetic; from N on the check
comes first. -/
theorem sctTrainResult : Obligations.SctTrainResult := by
  constructor
  · intro pw a t ha
    cases t with
    | false => exact decode_word (op := .train) ha (by decide) rfl rfl
    | true => exact decode_word (op := .train) ha (by decide) rfl rfl
  · intro s u i t hs hu
    constructor
    · intro hi
      obtain ⟨c, hc⟩ := sctRead_of_inv hs hu hi
      exact ⟨c, ctrUpdate s.cfg.ctrMax c t, hc, ctrUpdate_toNat s.cfg.ctrMax c t,
        exec_sctTrain_of_read hu hi hc t⟩
    · intro hi
      exact exec_sct_outOfRange (i := .sctTrain i t) (State.kind_of hu).symm rfl nofun hi

/-! ### Completion -/

/-- Settles O46, by `exec_completes`: what the instance performs is a command of its own unit, with an SCT index
within the table. -/
theorem legalCommandsComplete : Obligations.LegalCommandsComplete := by
  intro s i hs hperf
  obtain ⟨hk, -, hidx⟩ := hperf
  exact exec_completes hs hk hidx

end Sys2Proof.Machine
end

section
/-! SUPPORT. The LOCAL unit (41_local.md): the history update and its width (R101, R26), the three LOCAL commands (R102
to R104), and which addresses share a history or a counter (R106). -/

namespace Sys2Proof.Machine

/-! ### The history update -/

/-- R5, R26: `K = ceil(log2 N)` bits hold every value below `N`. -/
theorem le_two_pow_ceilLog2 (n : Nat) : n ≤ 2 ^ ceilLog2 n := by
  unfold ceilLog2
  split
  · next hn => exact hn
  · have hlt : n - 1 < 2 ^ (Nat.log2 (n - 1) + 1) := Nat.lt_log2_self
    omega

/-- Settles O10: R101's reduction is below N, which with `N = 1` leaves 0 alone, and N is at most `2^K`. -/
theorem historyStaysBelowTableSize : Obligations.HistoryStaysBelowTableSize := by
  intro n h t hn
  have hone : histNext 1 h t < 1 := histNext_lt le_rfl h t
  exact ⟨by rw [histNext, b2i_eq], histNext_lt hn h t, Nat.lt_one_iff.mp hone,
    fun hlt => hlt.trans_le (le_two_pow_ceilLog2 n)⟩

/-! ### The LOCAL commands -/

/-- Settles O15: the two headers differ in the ignored bit T, and the command commits `localResetState`. -/
theorem localResetResult : Obligations.LocalResetResult := by
  constructor
  · intro pw a h ha hh
    exact decode_word_of_ignored_outcome (k := .loc) (op := .reset) nofun ha hh
  · intro s u hu
    exact exec_localReset hu

section
variable {s : State} {u : LocalState} (hu : s.unit = .loc u)
include hu

/-- R25, R105: every bucket holds a history, and every history held is an index of `PHT_L`. -/
theorem localReads_of_inv (hs : s.Inv) (pc : Nat) :
    ∃ idx c, localIndex s.cfg.lhrEntries u pc = some idx ∧ tableRead u.phtL idx = some c := by
  have hw := hs.unitOk
  rw [hu] at hw
  exact localReads_of_wf (one_le_lhrEntries_of_numbersOk hs.numbersOk) hw pc

section
variable {pc idx : Nat} {c : Counter} (hi : localIndex s.cfg.lhrEntries u pc = some idx)
  (hc : tableRead u.phtL idx = some c)
include hi hc

theorem exec_localPredict_of_reads : exec (.localPredict pc) s = .next (s.respond ⟨predBit c, none⟩) := by
  rw [exec_localPredict hu, localPredict_eq hi hc, inTable_some]

theorem exec_localTrain_of_reads (t : Bool) : exec (.localTrain pc t) s =
    .next (s.commit (.loc ⟨u.lhr.set (localBucket s.cfg.lhrEntries pc) (histNext s.cfg.n idx t),
      tableWrite u.phtL idx (ctrUpdate s.cfg.ctrMax c t)⟩)) := by
  rw [exec_localTrain hu, localTrain_eq t hi hc, inTable_some]

end

theorem exec_localTrain_eq_next {pc : Nat} {t : Bool} {s' : State} (h : exec (.localTrain pc t) s = .next s') :
    ∃ u', localTrain s.cfg u pc t = some u' ∧ s' = s.commit (.loc u') := by
  rw [exec_localTrain hu] at h
  obtain ⟨u', hu', h⟩ := inTable_eq_next h
  cases h
  exact ⟨u', hu', rfl⟩

end

/-- Settles O16: both reads succeed on legal values, and the counter's `predBit` is its bit 1. -/
theorem localPredictResult : Obligations.LocalPredictResult := by
  constructor
  · intro pw a h ha hh
    exact decode_word_of_ignored_outcome (k := .loc) (op := .predict) nofun ha hh
  · intro s u pc hs hu
    obtain ⟨idx, c, hi, hc⟩ := localReads_of_inv hu hs pc
    refine ⟨idx, c, hi, hc, ?_⟩
    rw [exec_localPredict_of_reads hu hi hc, predBit_eq_bit_one]
    rfl

/-- Settles O17: the counter at the history read moves by `ctrUpdate`, in R80's and R81's arithmetic, and the history
by `histNext`, in R101's. -/
theorem localTrainResult : Obligations.LocalTrainResult := by
  constructor
  · intro pw a t ha
    cases t with
    | false => exact decode_word (op := .train) ha (by decide) rfl rfl
    | true => exact decode_word (op := .train) ha (by decide) rfl rfl
  · intro s u pc t hs hu
    obtain ⟨idx, c, hi, hc⟩ := localReads_of_inv hu hs pc
    exact ⟨idx, c, ctrUpdate s.cfg.ctrMax c t, hi, hc, ctrUpdate_toNat s.cfg.ctrMax c t,
      exec_localTrain_of_reads hu hi hc t⟩

/-! ### Aliasing -/

section
variable {entries : Nat} {cfg : Config} {u : LocalState} {pc pc' : Nat}

/-- The address enters the index only through its bucket (R100). -/
theorem localIndex_of_same_bucket (h : localBucket entries pc = localBucket entries pc') :
    localIndex entries u pc = localIndex entries u pc' := by
  rw [localIndex, localIndex, h]

/-- The address enters a PREDICT only through its index (R103). -/
theorem localPredict_of_same_index (h : localIndex entries u pc = localIndex entries u pc') :
    localPredict entries u pc = localPredict entries u pc' := by
  rw [localPredict, localPredict, h]

/-- The address enters a TRAIN only through its bucket (R104). -/
theorem localTrain_of_same_bucket (h : localBucket cfg.lhrEntries pc = localBucket cfg.lhrEntries pc') (t : Bool) :
    localTrain cfg u pc t = localTrain cfg u pc' t := by
  rw [localTrain, localTrain, localIndex_of_same_bucket h, h]

/-- R106: TRAINs of two buckets that hold the same history write the same counter. -/
theorem localTrain_phtL_of_same_index {t : Bool} {u₁ u₂ : LocalState}
    (h : localIndex cfg.lhrEntries u pc = localIndex cfg.lhrEntries u pc')
    (h₁ : localTrain cfg u pc t = some u₁) (h₂ : localTrain cfg u pc' t = some u₂) : u₁.phtL = u₂.phtL := by
  obtain ⟨idx, c, hi, hc, rfl⟩ := localTrain_cases h₁
  obtain ⟨idx', c', hi', hc', rfl⟩ := localTrain_cases h₂
  cases hi.symm.trans (h.trans hi')
  cases hc.symm.trans hc'
  rfl

end

/-- Settles O51: one bucket is one address to the unit, and one history is one index into `PHT_L`. -/
theorem localAliasing : Obligations.LocalAliasing := by
  intro s u pc pc' hu
  have hpredict (h : localIndex s.cfg.lhrEntries u pc = localIndex s.cfg.lhrEntries u pc') :
      exec (.localPredict pc) s = exec (.localPredict pc') s := by
    rw [exec_localPredict hu, exec_localPredict hu, localPredict_of_same_index h]
  constructor
  · intro hbucket
    refine ⟨hpredict (localIndex_of_same_bucket hbucket), fun t => ?_⟩
    rw [exec_localTrain hu, exec_localTrain hu, localTrain_of_same_bucket hbucket]
  · intro hindex
    refine ⟨hpredict hindex, fun t s₁ s₂ u₁ u₂ h₁ h₂ hu₁ hu₂ => ?_⟩
    obtain ⟨u₁', ht₁, rfl⟩ := exec_localTrain_eq_next hu h₁
    obtain ⟨u₂', ht₂, rfl⟩ := exec_localTrain_eq_next hu h₂
    cases hu₁
    cases hu₂
    exact localTrain_phtL_of_same_index hindex ht₁ ht₂

end Sys2Proof.Machine
end

section
/-! SUPPORT. The GSHARE unit (42_gshare.md): the XOR index and its bound (R120, R125), the three GSHARE commands (R122
to R124), and which addresses and histories share a counter (R126). -/

namespace Sys2Proof.Machine

/-! ### The index -/

/-- Settles O11: `2^k` is a legal size, so `gshareIndex_lt` bounds the index; for six, `5 xor 2` is 7. -/
theorem gshareIndexBound : Obligations.GshareIndexBound :=
  ⟨fun k pc _ hg => gshareIndex_lt Nat.one_le_two_pow (isPowerOfTwo_two_pow k) hg pc, by decide⟩

/-! ### The GSHARE commands -/

/-- Settles O18: the two headers differ in the ignored bit T, and the command commits `gshareResetState`. -/
theorem gshareResetResult : Obligations.GshareResetResult := by
  constructor
  · intro pw a h ha hh
    exact decode_word_of_ignored_outcome (k := .gshare) (op := .reset) nofun ha hh
  · intro s u hu
    exact exec_gshareReset hu

section
variable {s : State} {u : GshareState} (hu : s.unit = .gshare u)
include hu

/-- R125: with legal values the XOR index of every address is an entry of `PHT_G`. -/
theorem gshareRead_of_inv (hs : s.Inv) (pc : Nat) : ∃ c, tableRead u.phtG (gshareIndex s.cfg.n u pc) = some c := by
  have hlegal := hs.cfgLegal
  have hw := hs.unitOk
  rw [State.kind_of hu] at hlegal
  rw [hu] at hw
  exact gshareRead_of_wf (one_le_of_legal hlegal) (isPowerOfTwo_of_legal hlegal rfl) hw pc

section
variable {pc : Nat} {c : Counter} (hc : tableRead u.phtG (gshareIndex s.cfg.n u pc) = some c)
include hc

theorem exec_gsharePredict_of_read : exec (.gsharePredict pc) s = .next (s.respond ⟨predBit c, none⟩) := by
  rw [exec_gsharePredict hu, gsharePredict_eq hc, inTable_some]

theorem exec_gshareTrain_of_read (t : Bool) : exec (.gshareTrain pc t) s =
    .next (s.commit (.gshare ⟨histNext s.cfg.n u.ghr t,
      tableWrite u.phtG (gshareIndex s.cfg.n u pc) (ctrUpdate s.cfg.ctrMax c t)⟩)) := by
  rw [exec_gshareTrain hu, gshareTrain_eq t hc, inTable_some]

end

end

/-- Settles O19: the read of `PHT_G` succeeds on legal values, and the counter's `predBit` is its bit 1. -/
theorem gsharePredictResult : Obligations.GsharePredictResult := by
  constructor
  · intro pw a h ha hh
    exact decode_word_of_ignored_outcome (k := .gshare) (op := .predict) nofun ha hh
  · intro s u pc hs hu
    obtain ⟨c, hc⟩ := gshareRead_of_inv hu hs pc
    refine ⟨c, hc, ?_⟩
    rw [exec_gsharePredict_of_read hu hc, predBit_eq_bit_one]
    rfl

/-- Settles O20: the counter at the index of the history before the command moves by `ctrUpdate`, in R80's and R81's
arithmetic, and the GHR by `histNext`, in R101's. -/
theorem gshareTrainResult : Obligations.GshareTrainResult := by
  constructor
  · intro pw a t ha
    cases t with
    | false => exact decode_word (op := .train) ha (by decide) rfl rfl
    | true => exact decode_word (op := .train) ha (by decide) rfl rfl
  · intro s u pc t hs hu
    obtain ⟨c, hc⟩ := gshareRead_of_inv hu hs pc
    exact ⟨c, ctrUpdate s.cfg.ctrMax c t, hc, ctrUpdate_toNat s.cfg.ctrMax c t, exec_gshareTrain_of_read hu hc t⟩

/-! ### Aliasing -/

section
variable {n : Nat} {cfg : Config} {u u' : GshareState} {pc pc' : Nat}

/-- R120: the address enters the index only modulo `N`. -/
theorem gshareIndex_of_same_residue (h : pc % n = pc' % n) :
    gshareIndex n u pc = gshareIndex n u pc' := by
  rw [gshareIndex, gshareIndex, h]

/-- R123: the address and the history enter a PREDICT only through the index. -/
theorem gsharePredict_of_same_index (htable : u.phtG = u'.phtG) (h : gshareIndex n u pc = gshareIndex n u' pc') :
    gsharePredict n u pc = gsharePredict n u' pc' := by
  rw [gsharePredict, gsharePredict, htable, h]

/-- R124: the address enters a TRAIN only through the index. -/
theorem gshareTrain_of_same_index (h : gshareIndex cfg.n u pc = gshareIndex cfg.n u pc') (t : Bool) :
    gshareTrain cfg u pc t = gshareTrain cfg u pc' t := by
  rw [gshareTrain, gshareTrain, h]

/-- R126: TRAINs at one index of one table write the same counter, whatever the histories they shift. -/
theorem gshareTrain_phtG_of_same_index {t : Bool} {v v' : GshareState} (htable : u.phtG = u'.phtG)
    (h : gshareIndex cfg.n u pc = gshareIndex cfg.n u' pc') (hv : gshareTrain cfg u pc t = some v)
    (hv' : gshareTrain cfg u' pc' t = some v') : v.phtG = v'.phtG := by
  obtain ⟨c, hc, rfl⟩ := gshareTrain_cases hv
  obtain ⟨c', hc', rfl⟩ := gshareTrain_cases hv'
  rw [htable, h] at hc
  cases hc.symm.trans hc'
  rw [htable, h]

end

/-- Settles O52: the address counts only through its residue modulo N, and address and history together only through
the index into `PHT_G`. -/
theorem gshareAliasing : Obligations.GshareAliasing := by
  constructor
  · intro s u pc pc' hu hpc
    have hindex : gshareIndex s.cfg.n u pc = gshareIndex s.cfg.n u pc' := gshareIndex_of_same_residue hpc
    constructor
    · rw [exec_gsharePredict hu, exec_gsharePredict hu, gsharePredict_of_same_index rfl hindex]
    · intro t
      rw [exec_gshareTrain hu, exec_gshareTrain hu, gshareTrain_of_same_index hindex]
  · intro n pc pc' u u' htable hindex
    refine ⟨gsharePredict_of_same_index htable hindex, fun cfg t v v' hn hv hv' => ?_⟩
    subst hn
    exact gshareTrain_phtG_of_same_index htable hindex hv hv'

end Sys2Proof.Machine
end

section
/-! SUPPORT. The TOURNAMENT unit (43_tournament.md): the meta-selector's update (R142), the three TOUR commands (R143
to R145), that its sub-predictors are what standalone units would be (R147), and that one address alone never makes
them disagree (R149). -/

namespace Sys2Proof.Machine

/-! ### The TOUR commands -/

/-- Settles O7, by running the update on R142's 32 rows. -/
theorem metaUpdateTable : Obligations.MetaUpdateTable := by
  unfold Obligations.MetaUpdateTable
  decide

/-- Settles O21: the two headers differ in the ignored bit T, and the command commits `tourResetState`. -/
theorem tourResetResult : Obligations.TourResetResult := by
  constructor
  · intro pw a h ha hh
    exact decode_word_of_ignored_outcome (k := .tour) (op := .reset) nofun ha hh
  · intro s u hu
    exact exec_tourReset hu

section
variable {s : State} {u : TourState} (hs : s.Inv) (hu : s.unit = .tour u)
include hs hu

/-- R6, R30: the legal values of a TOURNAMENT, with the power of two its GSHARE index needs. -/
theorem tourLegal_of_inv : isPowerOfTwo s.cfg.n = true ∧ tourWf s.cfg u := by
  have hlegal := hs.cfgLegal
  have hw := hs.unitOk
  rw [State.kind_of hu] at hlegal
  rw [hu] at hw
  exact ⟨isPowerOfTwo_of_legal hlegal rfl, hw⟩

/-- R105, R125, R140: every read of a TOUR command is inside its table. -/
theorem tourReads_of_inv (pc : Nat) : ∃ m cg cl idx,
    tableRead u.metaTable (metaIndex s.cfg.n pc) = some m ∧
      tableRead u.subG.phtG (gshareIndex s.cfg.n u.subG pc) = some cg ∧
      localIndex s.cfg.lhrEntries u.subL pc = some idx ∧ tableRead u.subL.phtL idx = some cl := by
  have hn : 1 ≤ s.cfg.n := one_le_of_legal hs.cfgLegal
  obtain ⟨hp, hw⟩ := tourLegal_of_inv hs hu
  obtain ⟨m, hm⟩ := metaRead_of_wf hn hw pc
  obtain ⟨hwL, hwG, -⟩ := hw
  obtain ⟨cg, hcg⟩ := gshareRead_of_wf hn hp hwG pc
  obtain ⟨idx, cl, hi, hcl⟩ := localReads_of_wf (one_le_lhrEntries_of_numbersOk hs.numbersOk) hwL pc
  exact ⟨m, cg, cl, idx, hm, hcg, hi, hcl⟩

end

section
variable {s : State} {u : TourState} (hu : s.unit = .tour u)
include hu

section
variable {pc idx : Nat} {m cg cl : Counter} (hm : tableRead u.metaTable (metaIndex s.cfg.n pc) = some m)
  (hg : tableRead u.subG.phtG (gshareIndex s.cfg.n u.subG pc) = some cg)
  (hi : localIndex s.cfg.lhrEntries u.subL pc = some idx) (hl : tableRead u.subL.phtL idx = some cl)
include hm hg hi hl

theorem exec_tourPredict_of_reads : exec (.tourPredict pc) s =
    .next (s.respond ⟨if predBit m then predBit cg else predBit cl, none⟩) := by
  rw [exec_tourPredict hu, tourPredict_eq hm, gsharePredict_eq hg, localPredict_eq hi hl, ← apply_ite some,
    inTable_some]

theorem exec_tourTrain_of_reads (t : Bool) : exec (.tourTrain pc t) s =
    .next (s.commit (.tour {
      subL := ⟨u.subL.lhr.set (localBucket s.cfg.lhrEntries pc) (histNext s.cfg.n idx t),
        tableWrite u.subL.phtL idx (ctrUpdate s.cfg.ctrMax cl t)⟩
      subG := ⟨histNext s.cfg.n u.subG.ghr t,
        tableWrite u.subG.phtG (gshareIndex s.cfg.n u.subG pc) (ctrUpdate s.cfg.ctrMax cg t)⟩
      metaTable := tableWrite u.metaTable (metaIndex s.cfg.n pc)
        (metaUpdate s.cfg.metaGap s.cfg.ctrMax m t (predBit cg) (predBit cl)) })) := by
  rw [exec_tourTrain hu, tourTrain_eq (gsharePredict_eq hg) (localPredict_eq hi hl) hm (localTrain_eq t hi hl)
    (gshareTrain_eq t hg), inTable_some]

end

theorem exec_tourTrain_eq_next {pc : Nat} {t : Bool} {s' : State} (h : exec (.tourTrain pc t) s = .next s') :
    ∃ u', tourTrain s.cfg u pc t = some u' ∧ s' = s.commit (.tour u') := by
  rw [exec_tourTrain hu] at h
  obtain ⟨u', hu', h⟩ := inTable_eq_next h
  cases h
  exact ⟨u', hu', rfl⟩

end

/-- Settles O22: every read succeeds on legal values, and the meta counter's `predBit`, set from 2 upward, chooses
between the two counters' bits 1. -/
theorem tourPredictResult : Obligations.TourPredictResult := by
  constructor
  · intro pw a h ha hh
    exact decode_word_of_ignored_outcome (k := .tour) (op := .predict) nofun ha hh
  · intro s u pc hs hu
    obtain ⟨m, cg, cl, idx, hm, hg, hi, hl⟩ := tourReads_of_inv hs hu pc
    refine ⟨m, cg, cl, idx, hm, hg, hi, hl, ?_⟩
    rw [exec_tourPredict_of_reads hu hm hg hi hl,
      if_congr (predBit_iff_two_le m) (predBit_eq_bit_one cg) (predBit_eq_bit_one cl)]
    rfl

/-- Settles O23: both sub-predictors' counters move by `ctrUpdate`, in R80's and R81's arithmetic, and META by
`metaUpdate` of the two `predBit`s read before. -/
theorem tourTrainResult : Obligations.TourTrainResult := by
  constructor
  · intro pw a t ha
    cases t with
    | false => exact decode_word (op := .train) ha (by decide) rfl rfl
    | true => exact decode_word (op := .train) ha (by decide) rfl rfl
  · intro s u pc t hs hu
    obtain ⟨m, cg, cl, idx, hm, hg, hi, hl⟩ := tourReads_of_inv hs hu pc
    refine ⟨m, cg, cl, ctrUpdate s.cfg.ctrMax cg t, ctrUpdate s.cfg.ctrMax cl t, idx, hm, hg, hi, hl,
      ctrUpdate_toNat _ cg t, ctrUpdate_toNat _ cl t, ?_⟩
    rw [exec_tourTrain_of_reads hu hm hg hi hl, predBit_eq_bit_one, predBit_eq_bit_one]
    rfl

/-! ### The sub-predictors and standalone units -/

/-- R147: `sl` and `sg` are a standalone LOCAL and GSHARE with the parameters of the TOURNAMENT `s`, in the states of
its sub-predictors. -/
structure MirrorsSubPredictors (s sl sg : State) (u : TourState) : Prop where
  tourUnit : s.unit = .tour u
  localCfg : sl.cfg = s.cfg
  localUnit : sl.unit = .loc u.subL
  gshareCfg : sg.cfg = s.cfg
  gshareUnit : sg.unit = .gshare u.subG

section
variable {s sl sg : State} {u : TourState} (hm : MirrorsSubPredictors s sl sg u)
include hm

theorem MirrorsSubPredictors.commit (v : TourState) :
    MirrorsSubPredictors (s.commit (.tour v)) (sl.commit (.loc v.subL)) (sg.commit (.gshare v.subG)) v :=
  ⟨rfl, hm.localCfg, rfl, hm.gshareCfg, rfl⟩

theorem MirrorsSubPredictors.respond (r rl rg : Response) :
    MirrorsSubPredictors (s.respond r) (sl.respond rl) (sg.respond rg) u :=
  ⟨hm.tourUnit, hm.localCfg, hm.localUnit, hm.gshareCfg, hm.gshareUnit⟩

/-- R143: TOUR.RESET gives both sub-predictors what LOCAL.RESET and GSHARE.RESET give the standalone units. -/
theorem reset_mirrors : ∃ t tl tg v, exec .tourReset s = .next t ∧ exec .localReset sl = .next tl ∧
    exec .gshareReset sg = .next tg ∧ MirrorsSubPredictors t tl tg v :=
  ⟨_, _, _, _, exec_tourReset hm.tourUnit, by rw [exec_localReset hm.localUnit, hm.localCfg]; rfl,
    by rw [exec_gshareReset hm.gshareUnit, hm.gshareCfg]; rfl, hm.commit (tourResetState s.cfg)⟩

variable (hs : s.Inv)
include hs

/-- R144: a PREDICT of each responds, whatever the answers. -/
theorem predict_mirrors (pc : Nat) : ∃ t tl tg v, exec (.tourPredict pc) s = .next t ∧
    exec (.localPredict pc) sl = .next tl ∧ exec (.gsharePredict pc) sg = .next tg ∧
      MirrorsSubPredictors t tl tg v := by
  obtain ⟨m, cg, cl, idx, hmeta, hg, hi, hl⟩ := tourReads_of_inv hs hm.tourUnit pc
  rw [← hm.gshareCfg] at hg
  exact ⟨_, _, _, u, exec_tourPredict_of_reads hm.tourUnit hmeta (hm.gshareCfg ▸ hg) hi hl,
    exec_localPredict_of_reads hm.localUnit (hm.localCfg ▸ hi) hl, exec_gsharePredict_of_read hm.gshareUnit hg,
    hm.respond _ _ _⟩

/-- R145, R147: TOUR.TRAIN trains both sub-predictors, whichever is trusted, by the standalone units' own TRAINs. -/
theorem train_mirrors (pc : Nat) (o : Bool) : ∃ t tl tg v, exec (.tourTrain pc o) s = .next t ∧
    exec (.localTrain pc o) sl = .next tl ∧ exec (.gshareTrain pc o) sg = .next tg ∧
      MirrorsSubPredictors t tl tg v := by
  obtain ⟨t, ht⟩ := exec_completes hs (i := .tourTrain pc o) (State.kind_of hm.tourUnit).symm nofun
  obtain ⟨v, hv, rfl⟩ := exec_tourTrain_eq_next hm.tourUnit ht
  obtain ⟨g, l, m, subL, subG, -, -, -, hL, hG, rfl⟩ := tourTrain_cases hv
  exact ⟨_, _, _, _, ht, by rw [exec_localTrain hm.localUnit, hm.localCfg, hL, inTable_some],
    by rw [exec_gshareTrain hm.gshareUnit, hm.gshareCfg, hG, inTable_some], hm.commit _⟩

/-- R147 for one command, given to each unit in its own form. -/
theorem exec_mirrors (op : Opcode) (a : Nat) (o : Bool) : ∃ t tl tg v, exec (instrOf .tour op a o) s = .next t ∧
    exec (instrOf .loc op a o) sl = .next tl ∧ exec (instrOf .gshare op a o) sg = .next tg ∧
      MirrorsSubPredictors t tl tg v := by
  cases op with
  | reset => exact reset_mirrors hm
  | predict => exact predict_mirrors hm hs a
  | train => exact train_mirrors hm hs a o

end

/-- Settles O54, by induction on the commands: one command completes on all three and leaves the standalone units in
the sub-predictors' states. -/
theorem subPredictorsTrackStandaloneUnits : Obligations.SubPredictorsTrackStandaloneUnits := by
  intro ops
  induction ops with
  | nil =>
    intro s sl sg u _ hu _ hul _ hug
    exact ⟨s, sl, sg, u, rfl, rfl, rfl, hu, hul, hug⟩
  | cons o ops ih =>
    obtain ⟨op, a, out⟩ := o
    intro s sl sg u hs hu hcl hul hcg hug
    obtain ⟨t, tl, tg, v, ht, htl, htg, hm⟩ := exec_mirrors ⟨hu, hcl, hul, hcg, hug⟩ hs op a out
    simp only [List.map_cons, runCommands_cons_of_next ht, runCommands_cons_of_next htl,
      runCommands_cons_of_next htg]
    exact ih t tl tg v (exec_keeps_inv hs ht) hm.tourUnit hm.localCfg hm.localUnit hm.gshareCfg hm.gshareUnit

/-! ### One address alone -/

/-- R149: `x ↦ q xor x` is one-to-one, so that one value written at `h` of the one table and at `q xor h` of the other
keeps the entries at every `x` and `q xor x` equal. -/
theorem tableWrite_keeps_correspondence {tl tg : List Counter} {q n h : Nat}
    (heq : ∀ x < n, tableRead tl x = tableRead tg (q ^^^ x)) (hl : h < tl.length) (hg : q ^^^ h < tg.length)
    (v : Counter) :
    ∀ x < n, tableRead (tableWrite tl h v) x = tableRead (tableWrite tg (q ^^^ h) v) (q ^^^ x) := by
  intro x hx
  by_cases hxh : x = h
  · rw [hxh, tableRead_tableWrite_same hl, tableRead_tableWrite_same hg]
  · have hne : q ^^^ x ≠ q ^^^ h := mt Nat.xor_right_inj.mp hxh
    rw [tableRead_tableWrite_other tl v hxh, tableRead_tableWrite_other tg v hne, heq x hx]

section
variable {c : Config} {p : Nat} {u : TourState} (hagree : agreesAt c p u) (hg : u.subG.ghr < c.n)
include hagree hg

/-- R149: where the sub-predictors agree for `p`, both read the same counter for it. -/
theorem agreesAt_same_counter :
    tableRead u.subL.phtL u.subG.ghr = tableRead u.subG.phtG (gshareIndex c.n u.subG p) :=
  hagree.2 _ hg

/-- R149: a TRAIN of `p` shifts the same outcome into the same history, and moves the two corresponding counters by
the same update. -/
theorem tourTrain_keeps_agreement {t : Bool} {u' : TourState} (h : tourTrain c u p t = some u') :
    agreesAt c p u' := by
  obtain ⟨g, l, m, subL, subG, -, -, -, hL, hG, rfl⟩ := tourTrain_cases h
  obtain ⟨idx, cl, hi, hcl, rfl⟩ := localTrain_cases hL
  obtain ⟨cg, hcg, rfl⟩ := gshareTrain_cases hG
  have hbucket : localBucket c.lhrEntries p < u.subL.lhr.length := (List.getElem?_eq_some_iff.mp hi).1
  cases hi.symm.trans hagree.1
  cases hcl.symm.trans ((agreesAt_same_counter hagree hg).trans hcg)
  exact ⟨List.getElem?_set_self hbucket,
    tableWrite_keeps_correspondence hagree.2 (lt_length_of_tableRead hcl) (lt_length_of_tableRead hcg) _⟩

end

/-- R149: after reset every history is `HIST_INIT` and every counter `CTR_INIT`. -/
theorem agreesAt_reset {c : Config} (hlegal : c.legal .tour = true) (hnum : c.numbersOk = true) (p : Nat) :
    agreesAt c p (tourResetState c) := by
  constructor
  · exact List.getElem?_replicate_of_lt (localBucket_lt (one_le_lhrEntries_of_numbersOk hnum) p)
  · intro x hx
    have hxor : (p % c.n) ^^^ x < c.n :=
      gshareIndex_lt (one_le_of_legal hlegal) (isPowerOfTwo_of_legal hlegal rfl) (u := ⟨x, []⟩) hx p
    exact (tableRead_tableReset hx).trans (tableRead_tableReset hxor).symm

theorem resetFor_inv {k : Kind} {c : Config} (hlegal : c.legal k = true) (hnum : c.numbersOk = true) :
    (State.resetFor k c).Inv :=
  ⟨by rw [State.resetFor_kind]; exact hlegal, hnum, unitReset_wf hnum k, trivial, nofun, trivial⟩

/-- R149: a TOURNAMENT with the parameters `c` and legal values whose sub-predictors agree for `p`. -/
structure AgreeingState (c : Config) (p : Nat) (s : State) (u : TourState) : Prop where
  inv : s.Inv
  cfg : s.cfg = c
  unit : s.unit = .tour u
  agrees : agreesAt c p u

section
variable {c : Config} {p : Nat} {s : State} {u : TourState} (h : AgreeingState c p s u)
include h

theorem AgreeingState.train (t : Bool) :
    ∃ s' u', exec (.tourTrain p t) s = .next s' ∧ AgreeingState c p s' u' := by
  obtain ⟨hs, rfl, hu, hagree⟩ := h
  obtain ⟨-, -, ⟨hghr, -⟩, -⟩ := tourLegal_of_inv hs hu
  obtain ⟨s', hs'⟩ := exec_completes hs (i := .tourTrain p t) (State.kind_of hu).symm nofun
  obtain ⟨u', hu', rfl⟩ := exec_tourTrain_eq_next hu hs'
  exact ⟨_, u', hs', exec_keeps_inv hs hs', State.commit_cfg .., State.commit_unit ..,
    tourTrain_keeps_agreement hagree hghr hu'⟩

/-- R149, by induction on the outcomes. -/
theorem AgreeingState.trains (ts : List Bool) :
    ∃ s' u', runCommands (ts.map fun t => .tourTrain p t) s = .next s' ∧ AgreeingState c p s' u' := by
  induction ts generalizing s u with
  | nil => exact ⟨s, u, rfl, h⟩
  | cons t ts ih =>
    obtain ⟨s₁, u₁, h₁, hagree₁⟩ := h.train t
    rw [List.map_cons, runCommands_cons_of_next h₁]
    exact ih hagree₁

/-- R149: hence `G = L`, since both are bit 1 of the same counter. -/
theorem AgreeingState.predictions : ∃ taken,
    gsharePredict c.n u.subG p = some taken ∧ localPredict c.lhrEntries u.subL p = some taken := by
  obtain ⟨hs, rfl, hu, hagree⟩ := h
  obtain ⟨-, -, ⟨hghr, -⟩, -⟩ := tourLegal_of_inv hs hu
  obtain ⟨-, cg, -, -, -, hcg, -⟩ := tourReads_of_inv hs hu p
  exact ⟨predBit cg, gsharePredict_eq hcg,
    localPredict_eq hagree.1 ((agreesAt_same_counter hagree hghr).trans hcg)⟩

/-- R149: TOUR.PREDICT gives the sub-predictors' one answer, whichever META selects. -/
theorem AgreeingState.tourPredict {taken : Bool} (hg : gsharePredict c.n u.subG p = some taken)
    (hl : localPredict c.lhrEntries u.subL p = some taken) :
    exec (.tourPredict p) s = .next (s.respond ⟨taken, none⟩) := by
  obtain ⟨hs, rfl, hu, -⟩ := h
  obtain ⟨m, -, -, -, hm, -⟩ := tourReads_of_inv hs hu p
  rw [exec_tourPredict hu, tourPredict_eq hm, hg, hl, ite_self, inTable_some]

end

/-- Settles O60, by `AgreeingState`: TRAIN keeps it, reset gives it, and both predictions are the same in it. -/
theorem oneAddressTrainKeepsAgreement : Obligations.OneAddressTrainKeepsAgreement := by
  refine ⟨fun s u p t hs hu hagree => ?_,
    fun c p hlegal hnum => ⟨tourResetState c, rfl, agreesAt_reset hlegal hnum p⟩,
    fun s u p hs hu hagree => AgreeingState.predictions ⟨hs, rfl, hu, hagree⟩⟩
  obtain ⟨s', u', h, hinv, hcfg, hu', hagree'⟩ := AgreeingState.train ⟨hs, rfl, hu, hagree⟩ t
  exact ⟨s', u', h, hinv, hcfg, hu', hagree'⟩

/-- Settles O55: the TRAINs lead from the reset state through agreeing states only. -/
theorem oneAddressNeverDisagrees : Obligations.OneAddressNeverDisagrees := by
  intro c p ts hlegal hnum
  have hreset : AgreeingState c p (State.resetFor .tour c) (tourResetState c) :=
    ⟨resetFor_inv hlegal hnum, rfl, rfl, agreesAt_reset hlegal hnum p⟩
  obtain ⟨s, u, hrun, h⟩ := hreset.trains ts
  obtain ⟨hhist, htables⟩ := h.agrees
  obtain ⟨taken, hg, hl⟩ := h.predictions
  exact ⟨s, u, hrun, h.unit, hhist, htables, taken, hg, hl, h.tourPredict hg hl⟩

end Sys2Proof.Machine
end

section
/-! SUPPORT. Errors (60_exceptions.md): which error a refused command raises and what it records (R170, R174, R175),
the latched record and the faulted block (R176, R182), and that legal commands raise none (R178). -/

namespace Sys2Proof.Machine

/-! ### The error a step raises -/

/-- R66: the operand of a PREDICT or TRAIN is the field ADDR. -/
theorem decode_addr {k : Kind} {pw w : Nat} {i : Instr} (h : decode k pw w = .ok i) (hi : i.opcode ≠ .reset) :
    i.addr = addrField w := by
  obtain ⟨-, -, -, op, -, rfl⟩ := decode_eq_ok_iff.mp h
  rw [instrOf_opcode] at hi
  rw [instrOf_addr, if_neg hi]

/-- Settles O37: the step's word decoded to an SCT command that is no RESET, whose index is the field ADDR. -/
theorem onlySctRaisesIndexOutOfRange : Obligations.OnlySctRaisesIndexOutOfRange := by
  intro s idx h
  obtain ⟨c, rest, hin, -, -, -, ⟨r, -, he⟩ | ⟨i, hd, he, hk, hi, hn⟩⟩ := step_commandError_cases h
  · cases he
  · cases he
    exact ⟨hk, hn, c, rest, hin, (decode_addr hd hi).symm⟩

/-- R174: a presented word that the decoder calls illegal raises the reason with the whole word. -/
theorem step_of_illegal {s : State} {w : Nat} {rest : List HostCycle} {r : IllegalReason}
    (hi : s.inputs = presentWord w :: rest) (hf : s.faultRecord = none)
    (hd : decode s.kind s.cfg.pcWidth w = .error (.illegal r)) :
    step s = .fault (.commandError (.illegalCommand r w)) := by
  have hd' : decode (State.kind { s with inputs := rest }) s.cfg.pcWidth w = .error (.illegal r) := hd
  calc step s
    _ = runCycle (presentWord w) { s with inputs := rest } := step_of_inputs hi
    _ = runWord w { s with inputs := rest } := runCycle_presentWord (s := { s with inputs := rest }) hf w
    _ = .fault (.commandError (.illegalCommand r w)) := by simp [runWord, hd', State.raise]

/-- Settles O40: each clause is one check of the decoder, the checks before it passed (R68). -/
theorem illegalWordRaisesIllegalCommand : Obligations.IllegalWordRaisesIllegalCommand := by
  intro s w rest hi hf hw
  exact ⟨fun hr => step_of_illegal hi hf (decode_of_reservedBits hw hr),
    fun hr ho => step_of_illegal hi hf (decode_of_reservedOp hw hr ho),
    fun hr ho hu => step_of_illegal hi hf (decode_of_unitMismatch hw hr ho hu)⟩

/-! ### The block's cycle -/

section
variable {s s' : State}

theorem hwCycle_of_next (h : step s = .next s') : hwCycle s = .next s' := by
  simp [hwCycle, h]

theorem hwCycle_of_commandError {e : CommandError} (h : step s = .fault (.commandError e)) :
    hwCycle s = .next (s.afterInput.latchFault e) := by
  simp [hwCycle, h]

/-- Everything a cycle of the block that goes on can do: a step that goes on, or a refused command latched (R176). -/
theorem hwCycle_next_cases (h : hwCycle s = .next s') :
    step s = .next s' ∨ ∃ e, step s = .fault (.commandError e) ∧ s' = s.afterInput.latchFault e := by
  unfold hwCycle at h
  split at h
  · next hstep => cases h; exact .inl hstep
  · next e hstep => cases h; exact .inr ⟨e, hstep, rfl⟩
  · cases h
  · cases h

/-- Settles O42: the state is `latchFault` after the input, and the code is the error's own. -/
theorem refusedCommandLatchesItsError : Obligations.RefusedCommandLatchesItsError := by
  intro s e h
  refine ⟨hwCycle_of_commandError h, rfl, ?_⟩
  cases e with
  | illegalCommand | indexOutOfRange => rfl

/-- R170: the error a step raises is one the instance can raise, with the value recorded. -/
theorem recordWf_of_step {e : CommandError} (h : step s = .fault (.commandError e)) :
    recordWf s.kind s.cfg (some e) := by
  obtain ⟨c, rest, -, -, -, -, ⟨r, hd, rfl⟩ | ⟨i, hd, rfl, hk, -, hn⟩⟩ := step_commandError_cases h
  · exact hd
  · exact ⟨hk, hn, decode_addr_lt hd⟩

section
variable (hs : s.Inv)
include hs

theorem State.Inv.afterInput : s.afterInput.Inv :=
  ⟨hs.cfgLegal, hs.numbersOk, hs.unitOk, hs.recordOk,
    fun c hc => hs.inputsOk c (List.mem_of_mem_tail hc), hs.respOk⟩

theorem State.Inv.latchFault {e : CommandError} (he : recordWf s.kind s.cfg (some e)) : (s.latchFault e).Inv :=
  ⟨hs.cfgLegal, hs.numbersOk, hs.unitOk, he, hs.inputsOk, trivial⟩

end

/-- Settles O34: a step that goes on keeps the invariant, and the error of one that does not is fit to be recorded. -/
theorem hardwareCycleKeepsInvariant : Obligations.HardwareCycleKeepsInvariant := by
  intro s s' hs h
  obtain hstep | ⟨e, hstep, rfl⟩ := hwCycle_next_cases h
  · exact stepKeepsInvariant s s' hs hstep
  · have he : recordWf s.kind s.cfg (some e) := recordWf_of_step hstep
    exact hs.afterInput.latchFault he

/-! ### The faulted block -/

theorem runCycle_of_faulted {c : HostCycle} {e : CommandError} (hr : c.rst = false) (hf : s.faultRecord = some e) :
    runCycle c s = .next s.noResponse := by
  simp [runCycle, hr, State.faultPort, hf]

/-- R176: a faulted block takes its input and does nothing else, where the input is not `rst`. -/
theorem step_of_faulted {e : CommandError} (hf : s.faultRecord = some e)
    (hr : ∀ c ∈ s.inputs.head?, c.rst = false) : step s = .next s.afterInput.noResponse := by
  cases hi : s.inputs with
  | nil => simp [step, nextCycle, State.afterInput, State.noResponse, hi]
  | cons c rest =>
    rw [step_of_inputs hi, runCycle_of_faulted (s := { s with inputs := rest }) (hr c (by simp [hi])) hf]
    simp [State.afterInput, hi]

/-- The first of `k + 1` cycles of a faulted block. -/
theorem hwRun_succ_of_faulted {k : Nat} {e : CommandError} (hf : s.faultRecord = some e)
    (hr : ∀ c ∈ s.inputs.take (k + 1), c.rst = false) : hwRun (k + 1) s = hwRun k s.afterInput.noResponse := by
  have hhead : (s.inputs.take (k + 1)).head? = s.inputs.head? := List.head?_take
  have hstep := step_of_faulted hf fun c hc => hr c (List.mem_of_mem_head? (hhead ▸ hc))
  simp [hwRun, hwCycle_of_next hstep]

end

theorem hwRun_of_faulted {e : CommandError} (k : Nat) : ∀ {s : State}, s.faultRecord = some e →
    (∀ c ∈ s.inputs.take (k + 1), c.rst = false) →
    hwRun (k + 1) s = .next { s with inputs := s.inputs.drop (k + 1), resp := none } := by
  induction k with
  | zero =>
    intro s hf hr
    rw [hwRun_succ_of_faulted hf hr, List.drop_one]
    rfl
  | succ k ih =>
    intro s hf hr
    have hrest : ∀ c ∈ s.inputs.tail.take (k + 1), c.rst = false := fun c hc =>
      hr c (List.mem_of_mem_tail ((List.tail_take_eq_take_tail s.inputs (k + 2)).symm ▸ hc))
    rw [hwRun_succ_of_faulted hf hr, ih (s := s.afterInput.noResponse) hf hrest, State.noResponse_inputs,
      State.afterInput_inputs, List.drop_tail]
    rfl

/-- Settles O43, by induction on the cycles: each of them only takes its input. -/
theorem faultedBlockIgnoresCommandsUntilRst : Obligations.FaultedBlockIgnoresCommandsUntilRst := by
  intro k s e hf hr hk
  obtain ⟨k, rfl⟩ := Nat.exists_eq_add_one.mpr hk
  exact hwRun_of_faulted k hf hr

/-! ### Streams of legal commands -/

/-- A presentation that asks nothing illegal of the instance: `rst`, no command, or a command it performs. -/
def State.Accepts (s : State) (c : HostCycle) : Prop :=
  c.rst = true ∨ c.cmdValid = false ∨ ∃ i, decode s.kind s.cfg.pcWidth c.cmd = .ok i ∧ s.Performs i

/-- What is legal depends on the parameters only (R6, R66, R175). -/
theorem State.Accepts.of_same_parameters {s s' : State} {c : HostCycle} (h : s.Accepts c) (hcfg : s'.cfg = s.cfg)
    (hk : s'.kind = s.kind) : s'.Accepts c := by
  unfold State.Accepts State.Performs at *
  rwa [hcfg, hk]

theorem exec_keeps_inputs {i : Instr} {s s' : State} (h : exec i s = .next s') : s'.inputs = s.inputs := by
  obtain ⟨-, ⟨-, r, rfl⟩ | ⟨-, u, rfl, -⟩⟩ := exec_next_cases h
  · exact State.respond_inputs ..
  · exact State.commit_inputs ..

theorem step_takes_input {s s' : State} (h : step s = .next s') : s'.inputs = s.inputs.tail := by
  obtain ⟨rfl, hnil⟩ | ⟨c, rest, hin, hcases⟩ := step_next_cases h
  · rw [State.noResponse_inputs, hnil, List.tail_nil]
  · rw [hin, List.tail_cons]
    obtain ⟨-, rfl⟩ | ⟨-, -, rfl⟩ | ⟨-, -, -, i, -, hi⟩ := hcases
    · rfl
    · rfl
    · exact exec_keeps_inputs hi

section
variable {s : State} (hlegal : ∀ c ∈ s.inputs, s.Accepts c)
include hlegal

theorem step_ne_commandError (e : CommandError) : step s ≠ .fault (.commandError e) := by
  intro h
  obtain ⟨c, rest, hin, hr, hv, -, herr⟩ := step_commandError_cases h
  obtain hr' | hv' | ⟨i, hd, -, -, hidx⟩ := hlegal c (hin ▸ List.mem_cons_self)
  · cases hr.symm.trans hr'
  · cases hv.symm.trans hv'
  · obtain ⟨r, hd', -⟩ | ⟨i', hd', -, hk, hop, hn⟩ := herr
    · cases hd.symm.trans hd'
    · cases hd.symm.trans hd'
      exact absurd (hidx ((decode_unit hd).trans hk) hop) (Nat.not_lt.mpr hn)

/-- R178, R196: of the ways a step can stop, the invariant excludes those without a meaning, and legal inputs exclude
an error. -/
theorem step_completes (hs : s.Inv) : ∃ s', step s = .next s' := by
  obtain ⟨hindex, hrefused⟩ := noIndexLeavesItsTable s hs
  cases h : step s with
  | next s' => exact ⟨s', rfl⟩
  | fault f =>
    cases f with
    | commandError e => exact absurd h (step_ne_commandError hlegal e)
    | indexOutsideTable => exact absurd h hindex
  | refused r => exact absurd h (hrefused r)

end

theorem step_keeps_accepted_inputs {s s' : State} (h : step s = .next s') (hlegal : ∀ c ∈ s.inputs, s.Accepts c) :
    ∀ c ∈ s'.inputs, s'.Accepts c := by
  obtain ⟨hcfg, hk⟩ := step_keeps_parameters h
  rw [step_takes_input h]
  exact fun c hc => (hlegal c (List.mem_of_mem_tail hc)).of_same_parameters hcfg hk

/-- Settles O47, by induction on the cycles: a step goes on and keeps both the invariant and the legal inputs. -/
theorem legalStreamsRunSafely : Obligations.LegalStreamsRunSafely := by
  intro k
  induction k with
  | zero => exact fun _ _ _ => trivial
  | succ k ih =>
    intro s hs hlegal
    obtain ⟨s', h⟩ := step_completes hlegal hs
    exact ⟨s', h, ih s' (stepKeepsInvariant s s' hs h) (step_keeps_accepted_inputs h hlegal)⟩

end Sys2Proof.Machine
end

section
/-! SUPPORT. Reset and hazards (70_reset_and_hazards.md): the two ways to the reset state (R190, R199), its values
(R191) and that they are legal, the state a TRAIN sees after its PREDICT (R198), and the host's order (R194). -/

namespace Sys2Proof.Machine

/-! ### The reset state -/

theorem runCycle_of_rst {c : HostCycle} (hr : c.rst = true) (s : State) : runCycle c s = .next s.takeRst :=
  if_pos hr

/-- Settles O44: `rst` is the first thing a cycle asks, and a RESET command commits the same reset values. -/
theorem rstAndResetGiveResetState : Obligations.RstAndResetGiveResetState := by
  constructor
  · intro s c rest hin hr
    rw [step_of_inputs hin, runCycle_of_rst hr]
    rfl
  · intro s i hi hk
    rw [exec_reset hi hk, hk]
    rfl

section
variable (c : Config)

/-- R191: `N` counters of `CTR_INIT`. -/
theorem tableReset_values : (tableReset c).length = c.n ∧ ∀ i < c.n, (tableReset c)[i]? = some c.ctrInit :=
  ⟨tableReset_length c, fun _ => tableRead_tableReset⟩

/-- R191: `LHR_ENTRIES` histories of `HIST_INIT`. -/
theorem localResetState_lhr_values : (localResetState c).lhr.length = c.lhrEntries ∧
    ∀ b < c.lhrEntries, (localResetState c).lhr[b]? = some c.histInit :=
  ⟨List.length_replicate, fun _ => List.getElem?_replicate_of_lt⟩

end

/-- Settles O30, table by table of each kind; R5's numbers are the defaults of `Config`. -/
theorem resetStateValues : Obligations.ResetStateValues := by
  refine ⟨fun k c => ⟨State.resetFor_kind k c, rfl, rfl, rfl, ?_⟩, fun _ _ _ => ⟨rfl, rfl, rfl, rfl⟩⟩
  obtain ⟨hlen, hctr⟩ := tableReset_values c
  obtain ⟨hlhrLen, hlhr⟩ := localResetState_lhr_values c
  cases k with
  | sct => exact ⟨hlen, hctr⟩
  | loc => exact ⟨hlhrLen, hlhr, hlen, hctr⟩
  | gshare => exact ⟨rfl, hlen, hctr⟩
  | tour => exact ⟨hlhrLen, hlhr, hlen, hctr, rfl, hlen, hctr, hlen, hctr⟩

/-- Settles O31: the reset values are legal where the parameters are and their numbers fit, as R5's are and do. -/
theorem resetHasInvariant : Obligations.ResetHasInvariant :=
  ⟨resetFor_inv (by decide) (by decide), fun _ _ => resetFor_inv, fun _ pw gap hn => numbersOk_of_spec hn pw gap⟩

/-! ### A TRAIN after its PREDICT -/

section
variable {cfg : Config} {pc : Nat} {t : Bool}

/-- R104: a LOCAL TRAIN writes the counter at the history it read, and only then shifts that history. -/
theorem localTrain_reads_back {u u' : LocalState} (h : localTrain cfg u pc t = some u') :
    ∃ idx c, localIndex cfg.lhrEntries u pc = some idx ∧ tableRead u.phtL idx = some c ∧
      tableRead u'.phtL idx = some (ctrUpdate cfg.ctrMax c t) ∧
      localIndex cfg.lhrEntries u' pc = some (histNext cfg.n idx t) := by
  obtain ⟨idx, c, hi, hc, rfl⟩ := localTrain_cases h
  have hbucket : localBucket cfg.lhrEntries pc < u.lhr.length := (List.getElem?_eq_some_iff.mp hi).1
  exact ⟨idx, c, hi, hc, tableRead_tableWrite_same (lt_length_of_tableRead hc) _, List.getElem?_set_self hbucket⟩

/-- R124: a GSHARE TRAIN writes the counter at the index of the history it read, and only then shifts that history. -/
theorem gshareTrain_reads_back {u u' : GshareState} (h : gshareTrain cfg u pc t = some u') :
    ∃ c, tableRead u.phtG (gshareIndex cfg.n u pc) = some c ∧
      tableRead u'.phtG (gshareIndex cfg.n u pc) = some (ctrUpdate cfg.ctrMax c t) ∧
      u'.ghr = histNext cfg.n u.ghr t := by
  obtain ⟨c, hc, rfl⟩ := gshareTrain_cases h
  exact ⟨c, hc, tableRead_tableWrite_same (lt_length_of_tableRead hc) _, rfl⟩

end

section
variable {s s' : State} {pc : Nat} {c : Counter}

theorem exec_localPredict_resp {u : LocalState} (hu : s.unit = .loc u) {idx : Nat}
    (hi : localIndex s.cfg.lhrEntries u pc = some idx) (hc : tableRead u.phtL idx = some c)
    (h : exec (.localPredict pc) s = .next s') : s'.resp = some ⟨c.getLsbD 1, none⟩ := by
  rw [exec_localPredict_of_reads hu hi hc, predBit_eq_bit_one] at h
  cases h
  rfl

theorem exec_gsharePredict_resp {u : GshareState} (hu : s.unit = .gshare u)
    (hc : tableRead u.phtG (gshareIndex s.cfg.n u pc) = some c)
    (h : exec (.gsharePredict pc) s = .next s') : s'.resp = some ⟨c.getLsbD 1, none⟩ := by
  rw [exec_gsharePredict_of_read hu hc, predBit_eq_bit_one] at h
  cases h
  rfl

theorem exec_gshareTrain_eq_next {u : GshareState} (hu : s.unit = .gshare u) {t : Bool}
    (h : exec (.gshareTrain pc t) s = .next s') :
    ∃ u', gshareTrain s.cfg u pc t = some u' ∧ s' = s.commit (.gshare u') := by
  rw [exec_gshareTrain hu] at h
  obtain ⟨u', hu', h⟩ := inTable_eq_next h
  cases h
  exact ⟨u', hu', rfl⟩

end

/-- Settles O50: a PREDICT only responds, so that the TRAIN reads the state the PREDICT read; it writes the counter at
that state's index, and shifts the history. -/
theorem trainUpdatesTheCounterPredictRead : Obligations.TrainUpdatesTheCounterPredictRead := by
  constructor
  · intro s s1 s2 u pc t _ hu hp ht
    obtain ⟨r, rfl⟩ := exec_predict_respond rfl hp
    obtain ⟨u2, htrain, rfl⟩ := exec_localTrain_eq_next (s := s.respond r) hu ht
    obtain ⟨idx, c, hi, hc, hc2, hi2⟩ := localTrain_reads_back htrain
    exact ⟨u2, idx, c, _, rfl, hi, hc, exec_localPredict_resp hu hi hc hp, hc2, ctrUpdate_toNat _ c t, hi2⟩
  · intro s s1 s2 u pc t _ hu hp ht
    obtain ⟨r, rfl⟩ := exec_predict_respond rfl hp
    obtain ⟨u2, htrain, rfl⟩ := exec_gshareTrain_eq_next (s := s.respond r) hu ht
    obtain ⟨c, hc, hc2, hghr⟩ := gshareTrain_reads_back htrain
    exact ⟨u2, c, _, rfl, hc, exec_gsharePredict_resp hu hc hp, hc2, ctrUpdate_toNat _ c t,
      congrArg (pc % s.cfg.n ^^^ ·) hghr⟩

/-! ### The host's order -/

/-- Log 20: a RESET outside the pairs leaves the order to the commands after it. -/
theorem keepsBranchOrder_cons_of_reset {i : Instr} (hi : i.opcode = .reset) (is : List Instr) :
    keepsBranchOrder (i :: is) = keepsBranchOrder is := by
  cases is with
  | nil => simp [keepsBranchOrder, hi]
  | cons => simp [keepsBranchOrder, hi]

/-- A command that is no RESET is a PREDICT and the next one is the TRAIN of its address, or the order is broken. -/
theorem keepsBranchOrder_cons_cons {p : Instr} (hp : p.opcode ≠ .reset) (t : Instr) (is : List Instr) :
    keepsBranchOrder (p :: t :: is) = (p.opcode == .predict && t.opcode == .train && p.unit == t.unit &&
      p.addr == t.addr && keepsBranchOrder is) := by
  simp [keepsBranchOrder, hp]

/-- R72: a `br` is one whole pair. -/
theorem keepsBranchOrder_br_append (k : Kind) (a : Nat) (t : Bool) (is : List Instr) :
    keepsBranchOrder (expandLine (.br k a t) ++ is) = keepsBranchOrder is := by
  simp [expandLine, keepsBranchOrder_cons_cons, instrOf_addr]

/-- Settles O59, by induction on the lines: each takes a whole pair or a RESET off the front. In the two broken forms a
TRAIN is left by itself, and a PREDICT is followed by what is no TRAIN. -/
theorem branchLinesKeepTheHostsOrder : Obligations.BranchLinesKeepTheHostsOrder := by
  refine ⟨fun ls hls => ?_, fun k a t t' => ?_, fun k k' a t => ?_⟩
  · induction ls with
    | nil => rfl
    | cons l ls ih =>
      have hrest := ih fun l' hl' => hls l' (List.mem_cons_of_mem l hl')
      rw [List.flatMap_cons]
      obtain ⟨k, rfl⟩ | ⟨k, a, t, rfl⟩ := hls l List.mem_cons_self
      · exact (keepsBranchOrder_cons_of_reset (instrOf_opcode ..) _).trans hrest
      · exact (keepsBranchOrder_br_append k a t _).trans hrest
  · rw [keepsBranchOrder_br_append]
    simp [keepsBranchOrder]
  · simp [keepsBranchOrder_cons_cons]

end Sys2Proof.Machine
end

section
/-! SUPPORT. META_GAP_ACTION (D13, I9): the case it acts in, and that no other case of R142's rule reads it. -/

namespace Sys2Proof.Machine

/-- D13: trusting local, taken, neither sub-predictor taken, the update is the action. -/
theorem metaUpdate_of_gap (gap : MetaGapAction) (top : Counter) {m : Counter} (hm : predBit m = false) :
    metaUpdate gap top m true false false = MetaGapAction.apply top gap m := by
  simp [metaUpdate, hm]

/-- R142: trusting global, the source gives every case. -/
theorem metaUpdate_of_trustGlobal (gap gap' : MetaGapAction) (top : Counter) {m : Counter} (hm : predBit m = true)
    (t g l : Bool) : metaUpdate gap top m t g l = metaUpdate gap' top m t g l := by
  simp [metaUpdate, hm]

/-- R142: on a branch not taken, the source gives every case. -/
theorem metaUpdate_of_notTaken (gap gap' : MetaGapAction) (top m : Counter) (g l : Bool) :
    metaUpdate gap top m false g l = metaUpdate gap' top m false g l := by
  simp [metaUpdate]

/-- R142: where a sub-predictor answers taken, the source gives the case. -/
theorem metaUpdate_of_predictedTaken (gap gap' : MetaGapAction) (top m : Counter) (t : Bool) {g l : Bool}
    (hgl : g = true ∨ l = true) : metaUpdate gap top m t g l = metaUpdate gap' top m t g l := by
  obtain rfl | rfl := hgl <;> simp [metaUpdate]

/-- Settles O8: in the gap case the update is the action; any other case fails one of the gap's four conditions, and
each failure alone leads to a case R142 gives. -/
theorem metaGapActsInOneCase : Obligations.MetaGapActsInOneCase := by
  intro gap top m t g l
  rw [← predBit_eq_bit_one]
  constructor
  · rintro ⟨hm, rfl, rfl, rfl⟩
    rw [metaUpdate_of_gap gap top hm]
    cases gap with
    | unchanged => rfl
    | inc => exact satInc_toNat top m
    | dec => exact satDec_toNat m
  · intro hgap
    cases hm : predBit m with
    | true => exact metaUpdate_of_trustGlobal gap .unchanged top hm t g l
    | false =>
      cases t with
      | false => exact metaUpdate_of_notTaken gap .unchanged top m g l
      | true =>
        have hgl : g = true ∨ l = true := by
          by_contra hnone
          exact hgap ⟨hm, rfl, by simpa using hnone⟩
        exact metaUpdate_of_predictedTaken gap .unchanged top m true hgl

end Sys2Proof.Machine
end
